-- ==== Sys2Proof/Word.lean ====
section
/-! DEFINITION. The bit-vector types of the RCHIP-8 core: what the spec treats as bits (spec/00 R4, R6, R7). -/

namespace Sys2Proof

/-- A register, timer or heap byte: 8 bits (R4, R21). -/
abbrev Byte := BitVec 8

/-- An instruction word, pc, I or a stack entry: 16 bits (R4, R24, R28, R31). -/
abbrev Word := BitVec 16

/-- A 12-bit address operand `nnn`, or an address parameter (R5, R9). -/
abbrev Addr := BitVec 12

/-- A 4-bit field: a register index `x` or `y`, or the count `n` (R9). -/
abbrev Nibble := BitVec 4

end Sys2Proof
end

