-- ==== Sys2Proof/Syntax.lean ====
section
/-! DEFINITION. The instructions of spec/opcode_table.json: the 36 variants of spec/30 R83, each carrying the fields R83 gives it. -/

namespace Sys2Proof

/-- One constructor per row of spec/opcode_table.json (R83). `x`, `y` are register indices, `n` a count,
`kk` a byte constant, `nnn` a 12-bit address, `w` the raw word (R9, R92). -/
inductive Instr where
  /-- `00E0`, clear screen (R220). -/
  | cls
  /-- `00EE`, return from subroutine (R121). -/
  | ret
  /-- `0aaa`, except `00E0` and `00EE`: the legacy machine-call form (R120). -/
  | sys (nnn : Addr)
  /-- `1aaa`, jump (R122). -/
  | jp (nnn : Addr)
  /-- `2aaa`, call subroutine (R123). -/
  | call (nnn : Addr)
  /-- `3xkk`, skip if equal to immediate (R125). -/
  | seImm (x : Nibble) (kk : Byte)
  /-- `4xkk`, skip if not equal to immediate (R126). -/
  | sneImm (x : Nibble) (kk : Byte)
  /-- `5xy0`, skip if registers equal (R127). -/
  | seReg (x y : Nibble)
  /-- `6xkk`, set register to immediate (R150). -/
  | ldImm (x : Nibble) (kk : Byte)
  /-- `7xkk`, add immediate (R151). -/
  | addImm (x : Nibble) (kk : Byte)
  /-- `8xy0`, copy register (R152). -/
  | ldReg (x y : Nibble)
  /-- `8xy1`, bitwise or (R153). -/
  | orReg (x y : Nibble)
  /-- `8xy2`, bitwise and (R154). -/
  | andReg (x y : Nibble)
  /-- `8xy3`, bitwise exclusive or (R155). -/
  | xorReg (x y : Nibble)
  /-- `8xy4`, add with carry out (R156). -/
  | addReg (x y : Nibble)
  /-- `8xy5`, subtract Vy from Vx (R157). -/
  | sub (x y : Nibble)
  /-- `8xy6`, shift right by one (R158). -/
  | shr (x y : Nibble)
  /-- `8xy7`, subtract Vx from Vy into Vx (R159). -/
  | subn (x y : Nibble)
  /-- `8xyE`, shift left by one (R160). -/
  | shl (x y : Nibble)
  /-- `9xy0`, skip if registers not equal (R128). -/
  | sneReg (x y : Nibble)
  /-- `Aaaa`, set index register (R190). -/
  | ldI (nnn : Addr)
  /-- `Baaa`, jump with offset; the modern offset register is `nnn[11:8]` (R95, R124). -/
  | jpOff (nnn : Addr)
  /-- `Cxkk`, random byte masked by immediate (R161). -/
  | rnd (x : Nibble) (kk : Byte)
  /-- `Dxyn`, draw an n-byte sprite (R221). -/
  | drw (x y n : Nibble)
  /-- `Ex9E`, skip if the key is pressed (R253). -/
  | skp (x : Nibble)
  /-- `ExA1`, skip if the key is not pressed (R254). -/
  | sknp (x : Nibble)
  /-- `Fx07`, read the delay timer (R250). -/
  | ldVxDt (x : Nibble)
  /-- `Fx0A`, wait for a key (R255). -/
  | ldVxK (x : Nibble)
  /-- `Fx15`, set the delay timer (R251). -/
  | ldDtVx (x : Nibble)
  /-- `Fx18`, set the sound timer (R252). -/
  | ldStVx (x : Nibble)
  /-- `Fx1E`, add to the index register (R191). -/
  | addI (x : Nibble)
  /-- `Fx29`, font pointer (R192). -/
  | ldF (x : Nibble)
  /-- `Fx33`, decimal-digit conversion (R193). -/
  | ldB (x : Nibble)
  /-- `Fx55`, register block store (R194). -/
  | ldMemVx (x : Nibble)
  /-- `Fx65`, register block load (R195). -/
  | ldVxMem (x : Nibble)
  /-- Every other word, carried raw (R92, R129). -/
  | invalid (w : Word)
  deriving DecidableEq, Repr

end Sys2Proof
end

