-- ==== Sys2Proof/Decode.lean ====
section
/-! DEFINITION. The decoder (spec/30 R80-R99): fields, the total decode function of R93, the decoder's output port,
the byte-level reader, and the encoder written from the same pattern table (R83). -/

namespace Sys2Proof

/-! ## Fields (R81) -/

/-- `f = w[15:12]`, the opcode family. -/
def fieldF (w : Word) : Nibble := w.extractLsb' 12 4

/-- `x = w[11:8]`, the first register index. -/
def fieldX (w : Word) : Nibble := w.extractLsb' 8 4

/-- `y = w[7:4]`, the second register index. -/
def fieldY (w : Word) : Nibble := w.extractLsb' 4 4

/-- `n = w[3:0]`, the low nibble. -/
def fieldN (w : Word) : Nibble := w.extractLsb' 0 4

/-- `kk = w[7:0]`, the byte constant or sub-operation byte. -/
def fieldKK (w : Word) : Byte := w.extractLsb' 0 8

/-- `nnn = w[11:0]`, the 12-bit address. -/
def fieldNNN (w : Word) : Addr := w.extractLsb' 0 12

/-- `nnn[11:8]`, the modern offset register that JP_OFF's address names (R95). -/
def offsetField (nnn : Addr) : Nibble := nnn.extractLsb' 8 4

/-! ## The decode function (R85-R93) -/

/-- Family 0 (R86). -/
def decodeFamily0 (w : Word) : Instr :=
  if w = 0x00E0 then .cls else if w = 0x00EE then .ret else .sys (fieldNNN w)

/-- Family 8, by low nibble (R89). -/
def decodeFamily8 (w : Word) : Instr :=
  match (fieldN w).toNat with
  | 0x0 => .ldReg (fieldX w) (fieldY w)
  | 0x1 => .orReg (fieldX w) (fieldY w)
  | 0x2 => .andReg (fieldX w) (fieldY w)
  | 0x3 => .xorReg (fieldX w) (fieldY w)
  | 0x4 => .addReg (fieldX w) (fieldY w)
  | 0x5 => .sub (fieldX w) (fieldY w)
  | 0x6 => .shr (fieldX w) (fieldY w)
  | 0x7 => .subn (fieldX w) (fieldY w)
  | 0xE => .shl (fieldX w) (fieldY w)
  | _ => .invalid w

/-- Family E, by low byte (R90). -/
def decodeFamilyE (w : Word) : Instr :=
  match (fieldKK w).toNat with
  | 0x9E => .skp (fieldX w)
  | 0xA1 => .sknp (fieldX w)
  | _ => .invalid w

/-- Family F, by low byte (R91). -/
def decodeFamilyF (w : Word) : Instr :=
  match (fieldKK w).toNat with
  | 0x07 => .ldVxDt (fieldX w)
  | 0x0A => .ldVxK (fieldX w)
  | 0x15 => .ldDtVx (fieldX w)
  | 0x18 => .ldStVx (fieldX w)
  | 0x1E => .addI (fieldX w)
  | 0x29 => .ldF (fieldX w)
  | 0x33 => .ldB (fieldX w)
  | 0x55 => .ldMemVx (fieldX w)
  | 0x65 => .ldVxMem (fieldX w)
  | _ => .invalid w

/-- Every 16-bit word decodes to exactly one variant (R93); the last arm is family F. -/
def decode (w : Word) : Instr :=
  match (fieldF w).toNat with
  | 0x0 => decodeFamily0 w
  | 0x1 => .jp (fieldNNN w)
  | 0x2 => .call (fieldNNN w)
  | 0x3 => .seImm (fieldX w) (fieldKK w)
  | 0x4 => .sneImm (fieldX w) (fieldKK w)
  | 0x5 => if fieldN w = 0 then .seReg (fieldX w) (fieldY w) else .invalid w
  | 0x6 => .ldImm (fieldX w) (fieldKK w)
  | 0x7 => .addImm (fieldX w) (fieldKK w)
  | 0x8 => decodeFamily8 w
  | 0x9 => if fieldN w = 0 then .sneReg (fieldX w) (fieldY w) else .invalid w
  | 0xA => .ldI (fieldNNN w)
  | 0xB => .jpOff (fieldNNN w)
  | 0xC => .rnd (fieldX w) (fieldKK w)
  | 0xD => .drw (fieldX w) (fieldY w) (fieldN w)
  | 0xE => decodeFamilyE w
  | _ => decodeFamilyF w

/-! ## The decoder's output port (R80, R99) -/

/-- The variant numbers of R99. -/
def Instr.tag : Instr → BitVec 6
  | .invalid _ => 0
  | .cls => 1
  | .ret => 2
  | .sys _ => 3
  | .jp _ => 4
  | .call _ => 5
  | .seImm _ _ => 6
  | .sneImm _ _ => 7
  | .seReg _ _ => 8
  | .ldImm _ _ => 9
  | .addImm _ _ => 10
  | .ldReg _ _ => 11
  | .orReg _ _ => 12
  | .andReg _ _ => 13
  | .xorReg _ _ => 14
  | .addReg _ _ => 15
  | .sub _ _ => 16
  | .shr _ _ => 17
  | .subn _ _ => 18
  | .shl _ _ => 19
  | .sneReg _ _ => 20
  | .ldI _ => 21
  | .jpOff _ => 22
  | .rnd _ _ => 23
  | .drw _ _ _ => 24
  | .skp _ => 25
  | .sknp _ => 26
  | .ldVxDt _ => 27
  | .ldVxK _ => 28
  | .ldDtVx _ => 29
  | .ldStVx _ => 30
  | .addI _ => 31
  | .ldF _ => 32
  | .ldB _ => 33
  | .ldMemVx _ => 34
  | .ldVxMem _ => 35

/-- What the combinational decoder drives for a word (R80): the tag and all five fields, whether or not the variant
carries them. -/
structure DecoderPort where
  tag : BitVec 6
  x : Nibble
  y : Nibble
  n : Nibble
  kk : Byte
  nnn : Addr
  deriving DecidableEq, Repr

/-- The decoder block: its outputs depend on the word alone (R43, R80). -/
def decoderPort (w : Word) : DecoderPort :=
  { tag := (decode w).tag, x := fieldX w, y := fieldY w, n := fieldN w, kk := fieldKK w, nnn := fieldNNN w }

/-! ## Bytes -/

/-- The two bytes of an instruction word, the first at the lower address in the high half (R52, R54). -/
def wordOfBytes (hi lo : Byte) : Word := hi ++ lo

/-- Why a byte sequence holds no instruction: every instruction is exactly two bytes (R82, R98). -/
inductive DecodeError where
  /-- Fewer than two bytes are left. -/
  | truncated
  deriving DecidableEq, Repr

/-- Read one instruction from a byte sequence, with the bytes after it. -/
def decodeBytes : List Byte → Except DecodeError (Instr × List Byte)
  | hi :: lo :: rest => .ok (decode (wordOfBytes hi lo), rest)
  | [_] => .error .truncated
  | [] => .error .truncated

/-- A word's bytes as the heap stores them, high byte first (R54). -/
def bytesOfWord (w : Word) : List Byte := [w.extractLsb' 8 8, w.extractLsb' 0 8]

/-- The word a table entry of `nbits` bits stands for; every bit above `nbits` is 0. -/
def tableWord (nbits w : Nat) : Word := BitVec.ofNat 16 (w % 2 ^ nbits)

/-- What the decoder reads from an instruction whose bits are `w`, numbered as spec/opcode_table.json numbers them. -/
def decodeTableWord (nbits w : Nat) : Option Instr :=
  match decodeBytes (bytesOfWord (tableWord nbits w)) with
  | .ok (i, _) => some i
  | .error _ => none

/-! ## The encoder (patterns of R83) -/

/-- `f nnn`. -/
def encodeAddr (f : Nibble) (nnn : Addr) : Word := f ++ nnn

/-- `f x kk`, and `f x selector`. -/
def encodeByte (f x : Nibble) (kk : Byte) : Word := f ++ x ++ kk

/-- `f x y n`. -/
def encodePair (f x y n : Nibble) : Word := f ++ x ++ y ++ n

/-- The word of an instruction (R83). -/
def encode : Instr → Word
  | .cls => 0x00E0
  | .ret => 0x00EE
  | .sys nnn => encodeAddr 0x0 nnn
  | .jp nnn => encodeAddr 0x1 nnn
  | .call nnn => encodeAddr 0x2 nnn
  | .seImm x kk => encodeByte 0x3 x kk
  | .sneImm x kk => encodeByte 0x4 x kk
  | .seReg x y => encodePair 0x5 x y 0x0
  | .ldImm x kk => encodeByte 0x6 x kk
  | .addImm x kk => encodeByte 0x7 x kk
  | .ldReg x y => encodePair 0x8 x y 0x0
  | .orReg x y => encodePair 0x8 x y 0x1
  | .andReg x y => encodePair 0x8 x y 0x2
  | .xorReg x y => encodePair 0x8 x y 0x3
  | .addReg x y => encodePair 0x8 x y 0x4
  | .sub x y => encodePair 0x8 x y 0x5
  | .shr x y => encodePair 0x8 x y 0x6
  | .subn x y => encodePair 0x8 x y 0x7
  | .shl x y => encodePair 0x8 x y 0xE
  | .sneReg x y => encodePair 0x9 x y 0x0
  | .ldI nnn => encodeAddr 0xA nnn
  | .jpOff nnn => encodeAddr 0xB nnn
  | .rnd x kk => encodeByte 0xC x kk
  | .drw x y n => encodePair 0xD x y n
  | .skp x => encodeByte 0xE x 0x9E
  | .sknp x => encodeByte 0xE x 0xA1
  | .ldVxDt x => encodeByte 0xF x 0x07
  | .ldVxK x => encodeByte 0xF x 0x0A
  | .ldDtVx x => encodeByte 0xF x 0x15
  | .ldStVx x => encodeByte 0xF x 0x18
  | .addI x => encodeByte 0xF x 0x1E
  | .ldF x => encodeByte 0xF x 0x29
  | .ldB x => encodeByte 0xF x 0x33
  | .ldMemVx x => encodeByte 0xF x 0x55
  | .ldVxMem x => encodeByte 0xF x 0x65
  | .invalid w => w

end Sys2Proof
end

