-- ==== Sys2Proof/Config.lean ====
section
/-! DEFINITION. What is fixed for a run (spec/00 R5, spec/10 R34, R39, R42) and the values the spec leaves free. -/

namespace Sys2Proof

/-- The effect of the legacy machine-call form SYS (R120). -/
inductive SysAction where
  | nop
  | fault
  deriving DecidableEq, Repr

/-- The configuration record `cfg` (R5, R34): supplied at construction, fixed for a run. -/
structure Config where
  /-- `PROGRAM_ORIGIN`: the entry point and where the program image is loaded. -/
  programOrigin : Addr
  /-- `FONT_BASE`: where the font table is loaded. -/
  fontBase : Addr
  /-- `FONT_TABLE`: 16 glyphs of 5 row bytes, row 0 (top) first (R57). -/
  fontTable : Vector (Vector Byte 5) 16
  /-- `STACK_DEPTH`: `none` is unbounded. -/
  stackDepth : Option Nat
  /-- `CFG_SHIFT_LEGACY`: SHR and SHL shift Vy, not Vx. -/
  shiftLegacy : Bool
  /-- `CFG_JUMP_V0_LEGACY`: JP_OFF always adds V0. -/
  jumpV0Legacy : Bool
  /-- `CFG_INDEX_OVERFLOW_FLAG`: ADD_I writes VF. -/
  indexOverflowFlag : Bool
  /-- `CFG_LOADSTORE_INDEX_ADVANCE`: LD_MEM_VX and LD_VX_MEM advance I. -/
  loadStoreIndexAdvance : Bool
  /-- `CFG_LEGACY_ADVANCE_MINUS_ONE`: that advance is x, not x+1. -/
  legacyAdvanceMinusOne : Bool
  /-- `CFG_SPRITE_WRAP_Y`: sprite rows wrap at the bottom edge instead of clipping. -/
  spriteWrapY : Bool
  /-- `SYS_ACTION`. -/
  sysAction : SysAction
  deriving DecidableEq, Repr

/-- FREE VALUE (log 4): the random byte of the n-th free draw. R45, R161: "every byte value is possible at every
RND". It has no body, so a statement about it holds for every byte. -/
opaque Config.freeRand : Nat → Byte

/-- FREE VALUE (log 5): which of several pressed keys the n-th free draw picks, as an index reduced modulo their
number. R255: "`PressedKey()` may return any one of them". -/
opaque Config.freeKeyIndex : Nat → Nat

end Sys2Proof
end

