-- ==== Sys2Proof/Machine/Defaults.lean ====
section
/-! DEFINITION. The default parameter values of spec/00 R5 and the font table of spec/20 R57. -/

namespace Sys2Proof.Machine

/-- The customary font, the default `FONT_TABLE` (R57): glyph d is entry d, rows top to bottom. -/
def defaultFontTable : Vector (Vector Byte 5) 16 :=
  #v[#v[0xF0, 0x90, 0x90, 0x90, 0xF0], #v[0x20, 0x60, 0x20, 0x20, 0x70],
     #v[0xF0, 0x10, 0xF0, 0x80, 0xF0], #v[0xF0, 0x10, 0xF0, 0x10, 0xF0],
     #v[0x90, 0x90, 0xF0, 0x10, 0x10], #v[0xF0, 0x80, 0xF0, 0x10, 0xF0],
     #v[0xF0, 0x80, 0xF0, 0x90, 0xF0], #v[0xF0, 0x10, 0x20, 0x40, 0x40],
     #v[0xF0, 0x90, 0xF0, 0x90, 0xF0], #v[0xF0, 0x90, 0xF0, 0x10, 0xF0],
     #v[0xF0, 0x90, 0xF0, 0x90, 0x90], #v[0xE0, 0x90, 0xE0, 0x90, 0xE0],
     #v[0xF0, 0x80, 0x80, 0x80, 0xF0], #v[0xE0, 0x90, 0x90, 0x90, 0xE0],
     #v[0xF0, 0x80, 0xF0, 0x80, 0xF0], #v[0xF0, 0x80, 0xF0, 0x80, 0x80]]

/-- The defaults of R5, which `cfg` takes when the builder supplies none (R39). -/
def defaultConfig : Config where
  programOrigin := 0x200
  fontBase := 0x050
  fontTable := defaultFontTable
  stackDepth := none
  shiftLegacy := false
  jumpV0Legacy := false
  indexOverflowFlag := false
  loadStoreIndexAdvance := false
  legacyAdvanceMinusOne := false
  spriteWrapY := false
  sysAction := .nop

end Sys2Proof.Machine
end

