-- ==== Sys2Proof/Machine/State.lean ====
section
/-! DEFINITION. The state of the block (spec/10 R20), its reset (R38, R330), and the reasons a step can stop. -/

namespace Sys2Proof.Machine

/-- Why a run ended (spec/60 R302-R305), with the recorded value of R305. -/
inductive FatalReason where
  /-- RET on an empty stack (R302); the recorded value is the fetch address. -/
  | stackUnderflow (fetchAddr : Word)
  /-- CALL on a full stack of finite depth (R303); the fetch address and the target. -/
  | stackOverflow (fetchAddr : Word) (target : Addr)
  /-- SYS under `SYS_ACTION = fault` (R304); the fetch address and nnn. -/
  | sysUnsupported (fetchAddr : Word) (nnn : Addr)
  deriving DecidableEq, Repr

/-- The run state (R36). -/
inductive RunState where
  | running
  | halted (reason : FatalReason)
  deriving DecidableEq, Repr

/-- One event the environment drives on the block's input ports between instruction steps (R40, R341): a request for
one instruction step, a timer tick, or a new level on the keypad input. -/
inductive Input where
  | step
  | tick
  | keys (pressed : BitVec 16)
  deriving DecidableEq, Repr

/-- Heap bytes: (address, byte) pairs in the canonical form of `Memory.wf` (Machine/Ops.lean). -/
abbrev Memory := List Host.Cell

/-- The display: 32 rows of 64 pixels, `Pixel(c, r)` at row r, column c (R33). -/
abbrev Grid := Vector (Vector Bool 64) 32

/-- The architectural state (R20), the configuration of the run (R34, log 1), the keypad input's level (R44), and
the model's own two fields: the free-draw counter and the environment's coming events (log 2, 4, 5). -/
structure State where
  /-- V0..VF; VF = V[15] is also the flag (R21, R23). -/
  v : Vector Byte 16
  /-- The program counter (R24). -/
  pc : Word
  /-- The index register I (R28). -/
  i : Word
  /-- The delay timer (R29). -/
  dt : Byte
  /-- The sound timer (R30). -/
  st : Byte
  /-- The return addresses, the last one appended is the top (R31, R61). -/
  stack : List Word
  /-- The heap (R32, R50). -/
  heap : Memory
  /-- The display grid (R33). -/
  grid : Grid
  /-- The run state (R36). -/
  run : RunState
  /-- The configuration; no step writes it (R34, R42). -/
  cfg : Config
  /-- The level of the keypad input: bit k is key k (R44). -/
  keys : BitVec 16
  /-- The MODEL's own: how many free draws have been made (log 4, 5). -/
  draws : Nat
  /-- The MODEL's own: the environment's coming events, oldest first; none left means a step request (log 2). -/
  inputs : List Input
  deriving DecidableEq, Repr

/-- Why `step` gives no next state. -/
inductive Fault where
  /-- Raised by `stepEvent` (and so by `step`) alone, in a state whose run has already ended: "Once `halted`, the block takes no step of any
  kind" (R36, R301). Safe: the hardware takes no step there either (log 7). -/
  | halted (reason : FatalReason)
  deriving DecidableEq, Repr

/-- Instructions without a meaning. -/
inductive Refusal where
  /-- Raised by an arm of `exec` whose instruction has no meaning yet; no arm does. Safe. -/
  | notModelled (mnemonic : String)
  deriving DecidableEq, Repr

/-- The state right after reset under a configuration (R38, R330). An unlisted heap byte reads as its reset content,
the font table or 0 (`unlistedByte` in Machine/Ops.lean), so the reset heap lists nothing. -/
def State.resetWith (cfg : Config) : State where
  v := Vector.replicate 16 0
  pc := cfg.programOrigin.setWidth 16
  i := 0
  dt := 0
  st := 0
  stack := []
  heap := []
  grid := Vector.replicate 32 (Vector.replicate 64 false)
  run := .running
  cfg := cfg
  keys := 0
  draws := 0
  inputs := []

/-- Reset under the default configuration (R39). -/
def State.reset : State := State.resetWith defaultConfig

end Sys2Proof.Machine
end

