-- ==== Sys2Proof/Machine/Ops.lean ====
section
/-! DEFINITION. The named operations over registers, heap, stack, timers and inputs that every meaning is written
with (spec/00 R8), and taking a fatal condition (spec/60 R301). -/

namespace Sys2Proof.Machine

/-! ## One setter per field -/

def State.setV (s : State) (v : Vector Byte 16) : State := { s with v := v }
def State.setPc (s : State) (pc : Word) : State := { s with pc := pc }
def State.setI (s : State) (i : Word) : State := { s with i := i }
def State.setDt (s : State) (dt : Byte) : State := { s with dt := dt }
def State.setSt (s : State) (st : Byte) : State := { s with st := st }
def State.setStack (s : State) (stack : List Word) : State := { s with stack := stack }
def State.setHeap (s : State) (heap : Memory) : State := { s with heap := heap }
def State.setGrid (s : State) (grid : Grid) : State := { s with grid := grid }
def State.setRun (s : State) (run : RunState) : State := { s with run := run }
def State.setKeys (s : State) (keys : BitVec 16) : State := { s with keys := keys }
def State.setDraws (s : State) (draws : Nat) : State := { s with draws := draws }
def State.setInputs (s : State) (inputs : List Input) : State := { s with inputs := inputs }

/-! ## Registers (R21, R22) -/

/-- The index of the flag register VF (R11, R23). -/
def vf : Nibble := 0xF#4

/-- `V[x]`. -/
def State.readV (s : State) (x : Nibble) : Byte := s.v[x.toNat]'x.isLt

/-- `V[x] <- b`. -/
def State.writeV (s : State) (x : Nibble) (b : Byte) : State := s.setV (s.v.set x.toNat b x.isLt)

/-- `V[k] <- bs[k - first]` for k from `first` on, in order (the loop of R195); a register index is a nibble. -/
def State.loadRegs (s : State) (first : Nat) : List Byte → State
  | [] => s
  | b :: bs => (s.writeV (BitVec.ofNat 4 first) b).loadRegs (first + 1) bs

/-! ## Addresses (R24, R51) -/

/-- A heap address or pc value: reduced mod 4096, held in 16 bits. -/
def wrapAddr (a : Nat) : Word := BitVec.ofNat 16 (a % 4096)

/-! ## Memory: the canonical list -/

/-- What an unlisted address reads as: the reset content of R38. The font table stands at `FONT_BASE`, glyph d at
`FONT_BASE + 5d` (R57), each address reduced mod 4096; every other byte is 0 (log 6). -/
def unlistedByte (cfg : Config) (a : Nat) : Byte :=
  let k := (a % 4096 + 4096 - cfg.fontBase.toNat) % 4096
  if h : k < 80 then (cfg.fontTable[k / 5]'(by omega))[k % 5]'(by omega) else 0

/-- The byte at an address. -/
def Memory.get (cfg : Config) : Memory → Nat → Byte
  | [], a => unlistedByte cfg a
  | c :: m, a => if a = c.1 then c.2 else Memory.get cfg m a

/-- Drop every entry of an address. -/
def Memory.erase (m : Memory) (a : Nat) : Memory := m.filter fun c => c.1 != a

/-- Put an entry before the first one of a higher address. -/
def Memory.insert : Memory → Nat → Byte → Memory
  | [], a, b => [(a, b)]
  | c :: m, a, b => if a < c.1 then (a, b) :: c :: m else c :: Memory.insert m a b

/-- Write the byte at an address; writing what an unlisted address reads as removes the entry. -/
def Memory.put (cfg : Config) (m : Memory) (a : Nat) (b : Byte) : Memory :=
  if b = unlistedByte cfg a then m.erase a else (m.erase a).insert a b

/-- Addresses strictly rising from `lo` on, all below 4096, and no entry equal to what an unlisted address reads as. -/
def Memory.wfFrom (cfg : Config) (lo : Nat) : Memory → Bool
  | [] => true
  | c :: m => decide (lo ≤ c.1) && decide (c.1 < 4096) && (c.2 != unlistedByte cfg c.1) && Memory.wfFrom cfg (c.1 + 1) m

/-- The canonical form: equal memories are equal lists. -/
def Memory.wf (cfg : Config) (m : Memory) : Bool := Memory.wfFrom cfg 0 m

/-! ## Heap accesses (R51, R53) -/

/-- `MemRead(a, 1)`. -/
def State.readByte (s : State) (a : Nat) : Byte := s.heap.get s.cfg (a % 4096)

/-- `MemWrite(a, 1, b)`. -/
def State.writeByte (s : State) (a : Nat) (b : Byte) : State := s.setHeap (s.heap.put s.cfg (a % 4096) b)

/-- `MemRead(a + k, 1)` for k in 0..count-1, in order. -/
def State.readBlock (s : State) (a : Nat) : Nat → List Byte
  | 0 => []
  | count + 1 => s.readByte a :: s.readBlock (a + 1) count

/-- `MemWrite(a + k, 1, bs[k])`, in order. -/
def State.storeBlock (s : State) (a : Nat) : List Byte → State
  | [] => s
  | b :: bs => (s.writeByte a b).storeBlock (a + 1) bs

/-! ## Fetch and the program counter (R52, R340) -/

/-- The word at pc: the byte at pc is the high half, the byte at pc + 1 the low half. -/
def State.fetchWord (s : State) : Word := wordOfBytes (s.readByte s.pc.toNat) (s.readByte (s.pc.toNat + 1))

/-- `pc <- (pc + 2) mod 4096`: the fetch's advance, and a skip (R10). -/
def State.advancePc (s : State) : State := s.setPc (wrapAddr (s.pc.toNat + 2))

/-- `(pc - 2) mod 4096`: where the instruction under execution was fetched (R255, R305). -/
def State.fetchAddr (s : State) : Word := wrapAddr (s.pc.toNat + 4094)

/-- Skip when the condition holds. -/
def State.skipIf (s : State) (c : Bool) : State := if c then s.advancePc else s

/-! ## The stack (R61, R62) -/

/-- No room is left: `STACK_DEPTH` is finite and reached (log 9). -/
def State.stackFull (s : State) : Bool :=
  match s.cfg.stackDepth with
  | none => false
  | some d => decide (d ≤ s.stack.length)

/-- `Push(w)`, where there is room. -/
def State.push (s : State) (w : Word) : State := s.setStack (s.stack ++ [w])

/-- `Pop()`: the value appended last and the state without it; none on an empty stack. -/
def State.pop (s : State) : Option (Word × State) :=
  match s.stack.getLast? with
  | none => none
  | some w => some (w, s.setStack s.stack.dropLast)

/-! ## Taking a fatal condition (R301, R309)

`raise Fatal(reason)`: the state keeps the fetch and the pc advance, none of the instruction's own effects, and the
run state becomes halted. Nothing is saved, no mode changes and control goes nowhere. There is no return (R310): only
a reset leaves the halted state. -/

/-- Enter the halted state (R301): a next state whose run state is halted. -/
def State.raiseFatal (s : State) (r : FatalReason) : State := s.setRun (.halted r)

/-! ## Timers (R262) -/

/-- Decrement, floored at 0. -/
def timerDown (t : Byte) : Byte := if t = 0 then 0 else t - 1

/-- One tick event: both timers, nothing else. -/
def State.tick (s : State) : State := (s.setDt (timerDown s.dt)).setSt (timerDown s.st)

/-! ## Keypad and random inputs (R44, R45, R253, R255) -/

/-- `V[x] <= 0xF and Key(V[x])`: a value above 0xF names no key. -/
def State.keyPressed (s : State) (b : Byte) : Bool := decide (b.toNat ≤ 0xF) && s.keys.getLsbD b.toNat

/-- The pressed keys, lowest code first. -/
def pressedKeys (keys : BitVec 16) : List Nat := (List.range 16).filter fun k => keys.getLsbD k

/-- `PressedKey()`: none, the only one, or a free choice among several (log 5). -/
def State.pressedKey (s : State) : Option Byte :=
  match pressedKeys s.keys with
  | [] => none
  | [k] => some (BitVec.ofNat 8 k)
  | ks => (ks[Config.freeKeyIndex s.draws % ks.length]?).map (BitVec.ofNat 8)

/-- `Rand()`: a free byte (log 4). -/
def State.rand (s : State) : Byte := Config.freeRand s.draws

/-- A free draw has been made: the next one is a fresh value. -/
def State.countDraw (s : State) : State := s.setDraws (s.draws + 1)

/-! ## The environment's events (R341, log 2) -/

/-- What happens next: the oldest event, or a step request where none is left. -/
def State.nextInput (s : State) : Input :=
  match s.inputs with
  | [] => .step
  | e :: _ => e

/-- Take that event off the list. -/
def State.dropInput (s : State) : State := s.setInputs s.inputs.tail

/-! ## Placing an instruction -/

/-- The word's two bytes at pc, high byte first (R54). -/
def State.placeWord (s : State) (w : Word) : State := s.storeBlock s.pc.toNat (bytesOfWord w)

/-- Make the next event an instruction step: an event list that opens with another event gets a step request first. -/
def State.requestStep (s : State) : State :=
  match s.nextInput with
  | .step => s
  | .tick => s.setInputs (.step :: s.inputs)
  | .keys _ => s.setInputs (.step :: s.inputs)

end Sys2Proof.Machine
end

