-- ==== Sys2Proof/Machine/Flags.lean ====
section
/-! DEFINITION. Every flag computation of the spec (spec/41 R141, R142; spec/42 R191) and the one operation that writes
a result and its flag. -/

namespace Sys2Proof.Machine

/-- The value VF takes: 1 or 0. -/
def flagByte (c : Bool) : Byte := if c then 1 else 0

/-- ADD_REG's carry: the exact sum exceeds 0xFF (R156). -/
def carryOut (a b : Byte) : Bool := decide (a.toNat + b.toNat > 0xFF)

/-- SUB's and SUBN's flag: the minuend is strictly greater (R157, R159, C2). -/
def noBorrow (minuend subtrahend : Byte) : Bool := decide (minuend.toNat > subtrahend.toNat)

/-- SHR's flag: the bit shifted out on the right (R158). -/
def shiftedOutRight (a : Byte) : Bool := a.getLsbD 0

/-- SHL's flag: the bit shifted out on the left (R160). -/
def shiftedOutLeft (a : Byte) : Bool := a.getLsbD 7

/-- ADD_I's flag: the exact sum exceeds 0x0FFF (R191). -/
def indexOverflow (i : Word) (a : Byte) : Bool := decide (i.toNat + a.toNat > 0x0FFF)

/-- `VF <- c ? 1 : 0`. -/
def State.writeFlag (s : State) (c : Bool) : State := s.writeV vf (flagByte c)

/-- The result first, the flag second: with x = 0xF the flag overwrites the result (R142). -/
def State.writeResultAndFlag (s : State) (x : Nibble) (result : Byte) (flag : Bool) : State :=
  (s.writeV x result).writeFlag flag

end Sys2Proof.Machine
end

