-- ==== Sys2Proof/Machine/Operands.lean ====
section
/-! DEFINITION. The operand forms that are more than a plain register or immediate. -/

namespace Sys2Proof.Machine

/-- What SHR and SHL shift: Vy in legacy mode, Vx in modern mode (R158, R160). -/
def State.shiftSource (s : State) (x y : Nibble) : Byte := if s.cfg.shiftLegacy then s.readV y else s.readV x

/-- What JP_OFF adds: V0 in legacy mode, the register named by the address's top nibble in modern mode (R95, R124). -/
def State.jumpOffset (s : State) (nnn : Addr) : Byte :=
  if s.cfg.jumpV0Legacy then s.readV 0#4 else s.readV (offsetField nnn)

/-- The address of the glyph that a value's low nibble selects (R192). -/
def State.glyphAddr (s : State) (b : Byte) : Word := wrapAddr (s.cfg.fontBase.toNat + 5 * (b.toNat % 16))

/-- The three decimal digits, hundreds first (R193). -/
def decimalDigits (b : Byte) : List Byte :=
  [BitVec.ofNat 8 (b.toNat / 100), BitVec.ofNat 8 (b.toNat / 10 % 10), BitVec.ofNat 8 (b.toNat % 10)]

/-- V0..Vx, in order (R194). -/
def State.firstRegs (s : State) (x : Nibble) : List Byte := s.v.toList.take (x.toNat + 1)

/-- I after a block transfer: unchanged in modern mode, past the block (or one short of it) in legacy mode, mod 65536
(R194, R195). -/
def State.advancedIndex (s : State) (x : Nibble) : Word :=
  if s.cfg.loadStoreIndexAdvance then
    BitVec.ofNat 16 (s.i.toNat + x.toNat + (if s.cfg.legacyAdvanceMinusOne then 0 else 1))
  else s.i

end Sys2Proof.Machine
end

