-- ==== Sys2Proof/Machine/Control.lean ====
section
/-! DEFINITION. Control transfer, skips and no-op variants (spec/40). In every meaning `s.pc` is the already advanced
pc (R25, R340). -/

namespace Sys2Proof.Machine

/-- SYS (R120). -/
def execSys (nnn : Addr) (s : State) : Host.Outcome State Fault Refusal :=
  match s.cfg.sysAction with
  | .nop => .next s
  | .fault => .next (s.raiseFatal (.sysUnsupported s.fetchAddr nnn))

/-- RET (R121). -/
def execRet (s : State) : Host.Outcome State Fault Refusal :=
  match s.pop with
  | none => .next (s.raiseFatal (.stackUnderflow s.fetchAddr))
  | some (w, t) => .next (t.setPc (wrapAddr w.toNat))

/-- JP (R122). -/
def execJp (nnn : Addr) (s : State) : Host.Outcome State Fault Refusal := .next (s.setPc (nnn.setWidth 16))

/-- CALL (R123): the pushed value is the advanced pc; a full stack is fatal before anything is written. -/
def execCall (nnn : Addr) (s : State) : Host.Outcome State Fault Refusal :=
  if s.stackFull then .next (s.raiseFatal (.stackOverflow s.fetchAddr nnn))
  else .next ((s.push s.pc).setPc (nnn.setWidth 16))

/-- JP_OFF (R124). -/
def execJpOff (nnn : Addr) (s : State) : Host.Outcome State Fault Refusal :=
  .next (s.setPc (wrapAddr (nnn.toNat + (s.jumpOffset nnn).toNat)))

/-- SE_IMM (R125). -/
def execSeImm (x : Nibble) (kk : Byte) (s : State) : Host.Outcome State Fault Refusal :=
  .next (s.skipIf (s.readV x == kk))

/-- SNE_IMM (R126). -/
def execSneImm (x : Nibble) (kk : Byte) (s : State) : Host.Outcome State Fault Refusal :=
  .next (s.skipIf (s.readV x != kk))

/-- SE_REG (R127). -/
def execSeReg (x y : Nibble) (s : State) : Host.Outcome State Fault Refusal :=
  .next (s.skipIf (s.readV x == s.readV y))

/-- SNE_REG (R128). -/
def execSneReg (x y : Nibble) (s : State) : Host.Outcome State Fault Refusal :=
  .next (s.skipIf (s.readV x != s.readV y))

/-- INVALID (R129): a no-op, whatever word it carries. -/
def execInvalid (_w : Word) (s : State) : Host.Outcome State Fault Refusal := .next s

end Sys2Proof.Machine
end

