-- ==== Sys2Proof/Machine/Raster.lean ====
section
/-! DEFINITION. The display rasterizer (spec/43 R220-R228): the grid, one pixel's XOR, and the loops of R221. -/

namespace Sys2Proof.Machine

/-- `Pixel(c, r)`. -/
def Grid.pixel (g : Grid) (c : Fin 64) (r : Fin 32) : Bool := (g.get r).get c

/-- `Pixel(c, r) <- b`. -/
def Grid.setPixel (g : Grid) (c : Fin 64) (r : Fin 32) (b : Bool) : Grid :=
  g.set r.val ((g.get r).set c.val b c.isLt) r.isLt

/-- The grid with every pixel false (R220). -/
def Grid.clear : Grid := Vector.replicate 32 (Vector.replicate 64 false)

/-- The grid and the collision result while a sprite is drawn (R227). -/
structure Canvas where
  grid : Grid
  hit : Bool
  deriving DecidableEq, Repr

/-- A set sprite bit on a pixel: a set pixel is cleared and reports a collision, a clear one is set (R223). -/
def Canvas.plot (k : Canvas) (c : Fin 64) (r : Fin 32) : Canvas :=
  if k.grid.pixel c r then { grid := k.grid.setPixel c r false, hit := true }
  else { k with grid := k.grid.setPixel c r true }

/-- The column of a sprite bit: columns wrap (R225). -/
def spriteColumn (cx c : Nat) : Fin 64 := Fin.ofNat 64 (cx + c)

/-- The row of a sprite row, if it is drawn: rows clip at the bottom edge, or wrap by configuration (R226). -/
def spriteRow (wrapY : Bool) (py : Nat) : Option (Fin 32) :=
  if h : py < 32 then some ⟨py, h⟩ else if wrapY then some (Fin.ofNat 32 py) else none

/-- The columns of one row byte, `left` of them still to draw, the next one at offset c: bit 7 - c is drawn at column
cx + c (R224). -/
def Canvas.drawColumns (k : Canvas) (cx : Nat) (r : Fin 32) (b : Byte) (c : Nat) : Nat → Canvas
  | 0 => k
  | left + 1 =>
    (if b.getLsbD (7 - c) then k.plot (spriteColumn cx c) r else k).drawColumns cx r b (c + 1) left

/-- The rows of a sprite, the next one at row index `py` (R221). -/
def Canvas.drawRows (k : Canvas) (wrapY : Bool) (cx : Nat) (py : Nat) : List Byte → Canvas
  | [] => k
  | b :: bs =>
    match spriteRow wrapY py with
    | none => k.drawRows wrapY cx (py + 1) bs
    | some r => (k.drawColumns cx r b 0 8).drawRows wrapY cx (py + 1) bs

/-- Draw a sprite at a wrapped origin; no collision is carried over from earlier draws (R222, R227). -/
def Grid.drawSprite (g : Grid) (wrapY : Bool) (vx vy : Byte) (rows : List Byte) : Canvas :=
  Canvas.drawRows { grid := g, hit := false } wrapY (vx.toNat % 64) (vy.toNat % 32) rows

end Sys2Proof.Machine
end

