-- ==== Sys2Proof/Machine/Display.lean ====
section
/-! DEFINITION. Display instructions (spec/43). -/

namespace Sys2Proof.Machine

/-- CLS (R220): VF is not written. -/
def execCls (s : State) : Host.Outcome State Fault Refusal := .next (s.setGrid Grid.clear)

/-- DRW (R221): the position registers are read before VF is reset to 0, and the sprite bytes are read before any pixel
is written; VF ends holding the collision result. -/
def execDrw (x y n : Nibble) (s : State) : Host.Outcome State Fault Refusal :=
  let t := s.writeFlag false
  let k := t.grid.drawSprite s.cfg.spriteWrapY (s.readV x) (s.readV y) (s.readBlock s.i.toNat n.toNat)
  .next ((t.setGrid k.grid).writeFlag k.hit)

end Sys2Proof.Machine
end

