-- ==== Sys2Proof/Machine/Index.lean ====
section
/-! DEFINITION. Index register and memory-transfer instructions (spec/42). -/

namespace Sys2Proof.Machine

/-- LD_I (R190). -/
def execLdI (nnn : Addr) (s : State) : Host.Outcome State Fault Refusal := .next (s.setI (nnn.setWidth 16))

/-- ADD_I (R191): I is reduced whatever the flag configuration; VF is written only under it. -/
def execAddI (x : Nibble) (s : State) : Host.Outcome State Fault Refusal :=
  let t := s.setI (wrapAddr (s.i.toNat + (s.readV x).toNat))
  .next (if s.cfg.indexOverflowFlag then t.writeFlag (indexOverflow s.i (s.readV x)) else t)

/-- LD_F (R192). -/
def execLdF (x : Nibble) (s : State) : Host.Outcome State Fault Refusal := .next (s.setI (s.glyphAddr (s.readV x)))

/-- LD_B (R193). -/
def execLdB (x : Nibble) (s : State) : Host.Outcome State Fault Refusal :=
  .next (s.storeBlock s.i.toNat (decimalDigits (s.readV x)))

/-- LD_MEM_VX (R194). -/
def execLdMemVx (x : Nibble) (s : State) : Host.Outcome State Fault Refusal :=
  .next ((s.storeBlock s.i.toNat (s.firstRegs x)).setI (s.advancedIndex x))

/-- LD_VX_MEM (R195): every address is computed from I at the start. -/
def execLdVxMem (x : Nibble) (s : State) : Host.Outcome State Fault Refusal :=
  .next ((s.loadRegs 0 (s.readBlock s.i.toNat (x.toNat + 1))).setI (s.advancedIndex x))

end Sys2Proof.Machine
end

