-- ==== Sys2Proof/Machine/Timers.lean ====
section
/-! DEFINITION. Timer and keypad instructions (spec/44). -/

namespace Sys2Proof.Machine

/-- LD_VX_DT (R250). -/
def execLdVxDt (x : Nibble) (s : State) : Host.Outcome State Fault Refusal := .next (s.writeV x s.dt)

/-- LD_DT_VX (R251). -/
def execLdDtVx (x : Nibble) (s : State) : Host.Outcome State Fault Refusal := .next (s.setDt (s.readV x))

/-- LD_ST_VX (R252). -/
def execLdStVx (x : Nibble) (s : State) : Host.Outcome State Fault Refusal := .next (s.setSt (s.readV x))

/-- SKP (R253). -/
def execSkp (x : Nibble) (s : State) : Host.Outcome State Fault Refusal := .next (s.skipIf (s.keyPressed (s.readV x)))

/-- SKNP (R254). -/
def execSknp (x : Nibble) (s : State) : Host.Outcome State Fault Refusal :=
  .next (s.skipIf (!s.keyPressed (s.readV x)))

/-- LD_VX_K (R255): with no key pressed the pc goes back to the instruction itself and nothing else is written; with
one pressed its code is written, and the choice among several is a free draw. -/
def execLdVxK (x : Nibble) (s : State) : Host.Outcome State Fault Refusal :=
  match s.pressedKey with
  | none => .next (s.setPc s.fetchAddr)
  | some k => .next (s.countDraw.writeV x k)

end Sys2Proof.Machine
end

