-- ==== Sys2Proof/Machine/Event.lean ====
section
/-! DEFINITION. What one event does to the block (spec/70 R340, R341): the three kinds of step. -/

namespace Sys2Proof.Machine

/-- One event on the block's inputs: a halted block takes no step of any kind (R36, log 7); a running one executes the
instruction at pc after advancing pc (R340), ticks (R262), or sees a new keypad level (R44). -/
def stepEvent (e : Input) (s : State) : Host.Outcome State Fault Refusal :=
  match s.run with
  | .halted r => .fault (.halted r)
  | .running =>
    match e with
    | .step => exec (decode s.fetchWord) s.advancePc
    | .tick => .next s.tick
    | .keys k => .next (s.setKeys k)

end Sys2Proof.Machine
end

