-- ==== Sys2Proof/Machine/Step.lean ====
section
/-! DEFINITION. One step of the machine (spec/70 R340, R341), and placing an instruction where the next step fetches it. -/

namespace Sys2Proof.Machine

/-- One step: the environment's next event, taken off its list (R341, log 2). -/
def step (s : State) : Host.Outcome State Fault Refusal := stepEvent s.nextInput s.dropInput

/-- `s` with the instruction `w` of `nbits` bits as the one the next step fetches and runs (log 8): its bytes at pc,
the run not halted, and a step request as the next event. -/
def State.withFetchWord (s : State) (nbits w : Nat) : State :=
  ((s.placeWord (tableWord nbits w)).setRun .running).requestStep

end Sys2Proof.Machine
end

