-- ==== Sys2Proof/Machine/Assembly.lean ====
section
/-! DEFINITION. The assembly line of each instruction (spec/30 R100): the operation's name and its operands. It carries
no meaning for execution (D31). -/

namespace Sys2Proof.Machine

/-- An operand as R100 writes it. -/
inductive AsmOperand where
  /-- `Vx`, `Vy`. -/
  | reg (x : Nibble)
  /-- `byte`. -/
  | byte (kk : Byte)
  /-- `addr`. -/
  | addr (nnn : Addr)
  /-- `nibble`. -/
  | nibble (n : Nibble)
  /-- The raw word of a `DW` line. -/
  | word (w : Word)
  | i
  | dt
  | st
  | k
  | f
  | b
  /-- `[I]`. -/
  | atI
  deriving DecidableEq, Repr

/-- An assembly line. -/
structure AsmLine where
  op : String
  operands : List AsmOperand
  deriving DecidableEq, Repr

/-- The line of each variant (R100). -/
def assemblyLine : Instr → AsmLine
  | .cls => { op := "CLS", operands := [] }
  | .ret => { op := "RET", operands := [] }
  | .sys nnn => { op := "SYS", operands := [.addr nnn] }
  | .jp nnn => { op := "JP", operands := [.addr nnn] }
  | .call nnn => { op := "CALL", operands := [.addr nnn] }
  | .seImm x kk => { op := "SE", operands := [.reg x, .byte kk] }
  | .sneImm x kk => { op := "SNE", operands := [.reg x, .byte kk] }
  | .seReg x y => { op := "SE", operands := [.reg x, .reg y] }
  | .ldImm x kk => { op := "LD", operands := [.reg x, .byte kk] }
  | .addImm x kk => { op := "ADD", operands := [.reg x, .byte kk] }
  | .ldReg x y => { op := "LD", operands := [.reg x, .reg y] }
  | .orReg x y => { op := "OR", operands := [.reg x, .reg y] }
  | .andReg x y => { op := "AND", operands := [.reg x, .reg y] }
  | .xorReg x y => { op := "XOR", operands := [.reg x, .reg y] }
  | .addReg x y => { op := "ADD", operands := [.reg x, .reg y] }
  | .sub x y => { op := "SUB", operands := [.reg x, .reg y] }
  | .shr x y => { op := "SHR", operands := [.reg x, .reg y] }
  | .subn x y => { op := "SUBN", operands := [.reg x, .reg y] }
  | .shl x y => { op := "SHL", operands := [.reg x, .reg y] }
  | .sneReg x y => { op := "SNE", operands := [.reg x, .reg y] }
  | .ldI nnn => { op := "LD", operands := [.i, .addr nnn] }
  | .jpOff nnn => { op := "JP", operands := [.reg 0, .addr nnn] }
  | .rnd x kk => { op := "RND", operands := [.reg x, .byte kk] }
  | .drw x y n => { op := "DRW", operands := [.reg x, .reg y, .nibble n] }
  | .skp x => { op := "SKP", operands := [.reg x] }
  | .sknp x => { op := "SKNP", operands := [.reg x] }
  | .ldVxDt x => { op := "LD", operands := [.reg x, .dt] }
  | .ldVxK x => { op := "LD", operands := [.reg x, .k] }
  | .ldDtVx x => { op := "LD", operands := [.dt, .reg x] }
  | .ldStVx x => { op := "LD", operands := [.st, .reg x] }
  | .addI x => { op := "ADD", operands := [.i, .reg x] }
  | .ldF x => { op := "LD", operands := [.f, .reg x] }
  | .ldB x => { op := "LD", operands := [.b, .reg x] }
  | .ldMemVx x => { op := "LD", operands := [.atI, .reg x] }
  | .ldVxMem x => { op := "LD", operands := [.reg x, .atI] }
  | .invalid w => { op := "DW", operands := [.word w] }

end Sys2Proof.Machine
end

