-- ==== Sys2Proof/Machine/Boot.lean ====
section
/-! DEFINITION. The bulk load and the boot order (spec/20 R56, spec/70 R331). It runs before the first instruction
step and at no other time (R41): no step calls it. -/

namespace Sys2Proof.Machine

/-- `load(bytes, origin)`: `bytes[j]` to heap address `origin + j` (R56). -/
def State.load (s : State) (bytes : List Byte) (origin : Addr) : State := s.storeBlock origin.toNat bytes

/-- The 80 bytes of a font table, glyph by glyph, row 0 first (R57). -/
def fontBytes (cfg : Config) : List Byte := cfg.fontTable.toList.flatMap fun g => g.toList

/-- Boot (R331): the configuration, the reset state, the font at `FONT_BASE`, then the image at `PROGRAM_ORIGIN`. An
image longer than the space above the origin is refused by the loader (R56, D30). -/
def boot (cfg : Config) (image : List Byte) : Option State :=
  if image.length ≤ 4096 - cfg.programOrigin.toNat then
    some (((State.resetWith cfg).load (fontBytes cfg) cfg.fontBase).load image cfg.programOrigin)
  else none

end Sys2Proof.Machine
end

