-- ==== Sys2Proof/Machine/Outputs.lean ====
section
/-! DEFINITION. The block's output ports (spec/10 R40, R46; spec/60 R305): functions of the state. -/

namespace Sys2Proof.Machine

/-- `pixels`: the display grid (R46). -/
def State.pixelsOut (s : State) : Grid := s.grid

/-- `tone = (ST != 0)` (R264). -/
def State.toneOut (s : State) : Bool := s.st != 0

/-- `halted` (R36, R301). -/
def State.haltedOut (s : State) : Bool :=
  match s.run with
  | .running => false
  | .halted _ => true

/-- The codes of R305. -/
def FatalReason.code : FatalReason → BitVec 2
  | .stackUnderflow _ => 1
  | .stackOverflow _ _ => 2
  | .sysUnsupported _ _ => 3

/-- `fault_reason`: 0 while running (R305). -/
def State.faultReasonOut (s : State) : BitVec 2 :=
  match s.run with
  | .running => 0
  | .halted r => r.code

end Sys2Proof.Machine
end

