-- ==== Sys2Proof/Machine/TimerDriver.lean ====
section
/-! DEFINITION. The wall-clock driver of the tick input (spec/44 R261, spec/10 R37), which stands OUTSIDE the block: no
step reads it. It is a component of its own that turns calls at wall-clock times into tick events (log 10). -/

namespace Sys2Proof.Machine

/-- The driver's reference time, counted in whole 1/60 s intervals since the run began (R37). -/
structure TimerDriver where
  intervals : Nat
  deriving DecidableEq, Repr

/-- The reference time starts when instruction steps begin (R331). -/
def TimerDriver.start : TimerDriver := { intervals := 0 }

/-- One call of `tick()` at time `now`, in units of which `unitsPerSecond` make a second: when at least 1/60 s has
passed since the reference time, one decrement event, and the reference time advances by exactly one interval (R261). -/
def TimerDriver.call (unitsPerSecond now : Nat) (d : TimerDriver) : TimerDriver × List Input :=
  if (d.intervals + 1) * unitsPerSecond ≤ now * 60 then ({ intervals := d.intervals + 1 }, [.tick]) else (d, [])

/-- Calls at the listed times, in order: the driver after them and the tick events they produced. -/
def TimerDriver.calls (unitsPerSecond : Nat) (d : TimerDriver) : List Nat → TimerDriver × List Input
  | [] => (d, [])
  | now :: later =>
    let first := d.call unitsPerSecond now
    let rest := TimerDriver.calls unitsPerSecond first.1 later
    (rest.1, first.2 ++ rest.2)

end Sys2Proof.Machine
end

