-- ==== Sys2Proof/Safety.lean ====
section
/-! DEFINITION. The terms claims are stated in: what a step leaves unchanged, the machine's invariant, runs, the end of
a run, the pixels a sprite covers, and the bytes a fetch sees. -/

namespace Sys2Proof.Machine

/-! ## Frames -/

/-- The parts of the state a claim may name as changed. The configuration is not among them: no step writes it (R34). -/
inductive Part where
  | v
  | pc
  | i
  | dt
  | st
  | stack
  | heap
  | grid
  | run
  | keys
  | draws
  | inputs
  deriving DecidableEq, Repr

/-- `t` agrees with `s` on the configuration and on every part not listed: each register, the stack, every pixel, and
every byte of the heap as read. -/
def SameOutside (changed : List Part) (s t : State) : Prop :=
  t.cfg = s.cfg ∧
  (Part.v ∉ changed → ∀ j, t.readV j = s.readV j) ∧
  (Part.pc ∉ changed → t.pc = s.pc) ∧
  (Part.i ∉ changed → t.i = s.i) ∧
  (Part.dt ∉ changed → t.dt = s.dt) ∧
  (Part.st ∉ changed → t.st = s.st) ∧
  (Part.stack ∉ changed → t.stack = s.stack) ∧
  (Part.heap ∉ changed → ∀ a, t.readByte a = s.readByte a) ∧
  (Part.grid ∉ changed → ∀ c r, t.grid.pixel c r = s.grid.pixel c r) ∧
  (Part.run ∉ changed → t.run = s.run) ∧
  (Part.keys ∉ changed → t.keys = s.keys) ∧
  (Part.draws ∉ changed → t.draws = s.draws) ∧
  (Part.inputs ∉ changed → t.inputs = s.inputs)

/-! ## The invariant -/

/-- The stack is within a finite `STACK_DEPTH` (R62). -/
def State.StackWithinDepth (s : State) : Prop := ∀ d, s.cfg.stackDepth = some d → s.stack.length ≤ d

/-- I leaves 0..0x0FFF only in legacy block-transfer mode (R28). -/
def State.IndexInRange (s : State) : Prop := s.cfg.loadStoreIndexAdvance = false → s.i.toNat < 4096

/-- What holds of every state of a run: pc is a heap address (R24), every stacked return address is one (R31), the
stack is within its depth (R62), I is in range in modern mode (R28), and the heap is in its canonical form. -/
structure State.Inv (s : State) : Prop where
  pc_lt : s.pc.toNat < 4096
  stack_lt : ∀ w ∈ s.stack, w.toNat < 4096
  stack_depth : s.StackWithinDepth
  index_lt : s.IndexInRange
  heap_wf : s.heap.wf s.cfg = true

/-! ## Runs -/

/-- `t` is reached from `s` by steps of the machine. -/
inductive Reaches (s : State) : State → Prop where
  | refl : Reaches s s
  | step {t u : State} : Reaches s t → Sys2Proof.Machine.step t = .next u → Reaches s u

/-- The run that an endless sequence of events drives from `s`, its first n events taken (R341). A halted block takes no
step (R36), so it stays as it is whatever comes. -/
def State.drivenBy (env : Nat → Input) (s : State) : Nat → State
  | 0 => s
  | n + 1 =>
    match stepEvent (env n) (s.drivenBy env n) with
    | .next t => t
    | .fault _ => s.drivenBy env n
    | .refused _ => s.drivenBy env n

/-- Weak fairness on the tick agent (R341, D24). A tick can happen in every running state, so: if from some event on the
block runs for good, a tick comes at that event or later. -/
def TicksWeaklyFair (env : Nat → Input) (s : State) : Prop :=
  ∀ n, (∀ m, n ≤ m → (s.drivenBy env m).run = .running) → ∃ m, n ≤ m ∧ env m = .tick

/-- `s` is the start of a run: some configuration and image booted (R331), with any key levels, any free draws and any
events coming from the environment (R341). -/
def StartOfRun (s : State) : Prop :=
  ∃ cfg image s₀, boot cfg image = some s₀ ∧
    ∃ keys draws inputs, s = ((s₀.setKeys keys).setDraws draws).setInputs inputs

/-- A safe run: from `s`, no state is reached whose run has been ended by a fatal condition (R301). -/
def SafeFrom (s : State) : Prop := ∀ t, Reaches s t → t.run = .running

/-- The end of a run, for claims (R345): the block runs, and the word at pc jumps to pc. -/
def State.AtEnd (s : State) (p : Addr) : Prop :=
  s.run = .running ∧ s.pc.toNat = p.toNat ∧ s.fetchWord.toNat = 0x1000 + p.toNat

/-! ## Sprites -/

/-- A sprite of these rows, drawn at (vx, vy), has a set bit on the pixel at column c, row r: the origin is reduced
(R222), bit 7 is leftmost (R224), columns wrap (R225), rows clip or wrap (R226). -/
def spriteCovers (wrapY : Bool) (vx vy : Byte) (rows : List Byte) (c : Fin 64) (r : Fin 32) : Bool :=
  let dc := (c.val + 64 - vx.toNat % 64) % 64
  let dr := (r.val + 32 - vy.toNat % 32) % 32
  decide (dc < 8) && (wrapY || decide (vy.toNat % 32 ≤ r.val)) && (rows.getD dr 0).getLsbD (7 - dc)

/-- The same for the sprite that DRW x, y, n draws in a state: its bytes are at I, I+1, ... (R221). -/
def State.drawCovers (s : State) (x y n : Nibble) (c : Fin 64) (r : Fin 32) : Bool :=
  spriteCovers s.cfg.spriteWrapY (s.readV x) (s.readV y)
    ((List.range n.toNat).map fun k => s.readByte (s.i.toNat + k)) c r

/-! ## Stores over the next instruction -/

/-- The byte of the word fetched in `s` that stands at pc + half: half 0 is the high byte, half 1 the low one (R52). -/
def State.fetchHalf (s : State) (half : Nat) : Nat :=
  if half = 0 then s.fetchWord.toNat / 256 else s.fetchWord.toNat % 256

/-- `t` fetches at the same pc as `s`, and sees in each byte of the word what the block `bs`, stored at s.I, holds for
that address, or the byte `s` had there where the block does not reach it (R66). -/
def FetchSeesBlock (s t : State) (bs : List Byte) : Prop :=
  t.pc = s.pc ∧ ∀ half < 2,
    (∀ k (h : k < bs.length), (s.pc.toNat + half) % 4096 = (s.i.toNat + k) % 4096 → t.fetchHalf half = bs[k].toNat) ∧
    ((∀ k < bs.length, (s.pc.toNat + half) % 4096 ≠ (s.i.toNat + k) % 4096) → t.fetchHalf half = s.fetchHalf half)

end Sys2Proof.Machine
end

