-- ==== Sys2Proof/Certificates/Slice0/Obligations.lean ====
section
/-! DEFINITION. The statements for the provers. In every statement about `exec`, `s` is the state after the fetch and the
pc advance (R25, R340), so `s.pc` is the address of the following instruction, and `SameOutside ps s t` says that `t`
agrees with `s` on everything not listed in `ps`: every register, the stack, every pixel, every byte of the heap. -/

open Sys2Proof Sys2Proof.Machine

/-! ## Encoding (spec/30) -/

/-- R83, R93: decoding the word of a well-formed instruction gives the instruction back, every operand at every value. -/
def Obligations.DecodeOfEncodeGivesInstruction : Prop :=
  ∀ i : Instr, i.WellFormed → decode (encode i) = i

/-- R93, R96: every word decodes to a well-formed instruction whose encoding is that word, so no bit is dropped. -/
def Obligations.EncodeOfDecodeGivesWord : Prop :=
  ∀ w : Word, (decode w).WellFormed ∧ encode (decode w) = w

/-- R103: the document's literal decode cases. -/
def Obligations.LiteralWordsDecodeAsListed : Prop :=
  decode 0x00E0 = .cls ∧ decode 0x1228 = .jp 0x228 ∧ decode 0x6A02 = .ldImm 0xA 0x02 ∧
  decode 0x7A01 = .addImm 0xA 0x01 ∧ decode 0xA2EA = .ldI 0x2EA ∧ decode 0xD01F = .drw 0 1 0xF

/-- R88-R92: a word decodes to INVALID exactly when its family and selector match no sub-operation, and INVALID carries
that word. -/
def Obligations.OnlyUnmatchedWordsAreInvalid : Prop :=
  ∀ w : Word,
    ((decode w = .invalid w) ↔
      ((w.toNat / 4096 = 0x5 ∨ w.toNat / 4096 = 0x9) ∧ w.toNat % 16 ≠ 0) ∨
      (w.toNat / 4096 = 0x8 ∧ w.toNat % 16 ∈ [0x8, 0x9, 0xA, 0xB, 0xC, 0xD, 0xF]) ∨
      (w.toNat / 4096 = 0xE ∧ w.toNat % 256 ∉ [0x9E, 0xA1]) ∨
      (w.toNat / 4096 = 0xF ∧ w.toNat % 256 ∉ [0x07, 0x0A, 0x15, 0x18, 0x1E, 0x29, 0x33, 0x55, 0x65])) ∧
    ∀ v, decode w = .invalid v → v = w

/-- R99: the number of every variant, for every well-formed instruction of it; no word drives a tag above 35, and tag 0 is
driven exactly for the words that decode to INVALID. -/
def Obligations.TagOutputRangesOverVariantNumbers : Prop :=
  (∀ (x y n : Nibble) (kk : Byte) (nnn : Addr) (w : Word),
    (decoderPort (encode .cls)).tag = 1 ∧ (decoderPort (encode .ret)).tag = 2 ∧
    ((Instr.sys nnn).WellFormed → (decoderPort (encode (.sys nnn))).tag = 3) ∧
    (decoderPort (encode (.jp nnn))).tag = 4 ∧ (decoderPort (encode (.call nnn))).tag = 5 ∧
    (decoderPort (encode (.seImm x kk))).tag = 6 ∧ (decoderPort (encode (.sneImm x kk))).tag = 7 ∧
    (decoderPort (encode (.seReg x y))).tag = 8 ∧ (decoderPort (encode (.ldImm x kk))).tag = 9 ∧
    (decoderPort (encode (.addImm x kk))).tag = 10 ∧ (decoderPort (encode (.ldReg x y))).tag = 11 ∧
    (decoderPort (encode (.orReg x y))).tag = 12 ∧ (decoderPort (encode (.andReg x y))).tag = 13 ∧
    (decoderPort (encode (.xorReg x y))).tag = 14 ∧ (decoderPort (encode (.addReg x y))).tag = 15 ∧
    (decoderPort (encode (.sub x y))).tag = 16 ∧ (decoderPort (encode (.shr x y))).tag = 17 ∧
    (decoderPort (encode (.subn x y))).tag = 18 ∧ (decoderPort (encode (.shl x y))).tag = 19 ∧
    (decoderPort (encode (.sneReg x y))).tag = 20 ∧ (decoderPort (encode (.ldI nnn))).tag = 21 ∧
    (decoderPort (encode (.jpOff nnn))).tag = 22 ∧ (decoderPort (encode (.rnd x kk))).tag = 23 ∧
    (decoderPort (encode (.drw x y n))).tag = 24 ∧ (decoderPort (encode (.skp x))).tag = 25 ∧
    (decoderPort (encode (.sknp x))).tag = 26 ∧ (decoderPort (encode (.ldVxDt x))).tag = 27 ∧
    (decoderPort (encode (.ldVxK x))).tag = 28 ∧ (decoderPort (encode (.ldDtVx x))).tag = 29 ∧
    (decoderPort (encode (.ldStVx x))).tag = 30 ∧ (decoderPort (encode (.addI x))).tag = 31 ∧
    (decoderPort (encode (.ldF x))).tag = 32 ∧ (decoderPort (encode (.ldB x))).tag = 33 ∧
    (decoderPort (encode (.ldMemVx x))).tag = 34 ∧ (decoderPort (encode (.ldVxMem x))).tag = 35 ∧
    ((Instr.invalid w).WellFormed → (decoderPort (encode (.invalid w))).tag = 0)) ∧
  ∀ w : Word, (decoderPort w).tag.toNat ≤ 35 ∧ ((decoderPort w).tag = 0 ↔ decode w = .invalid w)

/-- R81: the fields stand at fixed bit positions, unsigned, whatever the variant. -/
def Obligations.DecoderDrivesFieldsAtFixedPositions : Prop :=
  ∀ w : Word,
    (fieldF w).toNat = ((w.toNat >>> 12) &&& 0xF) ∧
    (decoderPort w).x.toNat = ((w.toNat >>> 8) &&& 0xF) ∧
    (decoderPort w).y.toNat = ((w.toNat >>> 4) &&& 0xF) ∧
    (decoderPort w).n.toNat = (w.toNat &&& 0xF) ∧
    (decoderPort w).kk.toNat = (w.toNat &&& 0xFF) ∧
    (decoderPort w).nnn.toNat = (w.toNat &&& 0xFFF)

/-- R100, R101: an assembly line stands for one instruction, so it encodes to exactly one word. -/
def Obligations.AssemblyLineDeterminesInstruction : Prop :=
  ∀ i j : Instr, assemblyLine i = assemblyLine j → i = j

/-! ## The step (spec/70, spec/20, spec/60) -/

/-- R340: a running block whose next event is a step request executes the instruction that the word at pc decodes to, on
the state whose pc has been advanced by 2 mod 4096; a block that is not running takes no step. (Around `exec` the step
also takes the step request off the model's own event list, log 2.) -/
def Obligations.StepExecutesDecodedInstruction : Prop :=
  ∀ s : State,
    (s.run = .running → s.nextInput = .step →
      ∀ i, decode s.fetchWord = i →
        i.WellFormed ∧ ∃ u, step s = exec i u ∧ u.pc.toNat = (s.pc.toNat + 2) % 4096 ∧ u.inputs = s.inputs.tail ∧
          SameOutside [.pc, .inputs] s u) ∧
    (s.run ≠ .running → ∀ t, step s ≠ .next t)

/-- R52: the fetched word is big-endian, and its second byte's address wraps. -/
def Obligations.FetchedWordIsBigEndian : Prop :=
  ∀ s : State,
    s.fetchWord.toNat = (s.readByte s.pc.toNat).toNat * 256 + (s.readByte ((s.pc.toNat + 1) % 4096)).toNat

/-- R36, R301, R305, R306, R341: a halted block takes no step of any kind: it stops with its reason (log 7) and shows it on
its outputs; a running block takes a step on every event. -/
def Obligations.StepStopsExactlyWhenHalted : Prop :=
  ∀ s : State,
    (∀ r, s.run = .halted r → step s = .fault (.halted r) ∧ (∀ e, stepEvent e s = .fault (.halted r)) ∧
      s.haltedOut = true ∧
      (s.faultReasonOut.toNat = 1 ↔ ∃ a, r = .stackUnderflow a) ∧
      (s.faultReasonOut.toNat = 2 ↔ ∃ a nnn, r = .stackOverflow a nnn) ∧
      (s.faultReasonOut.toNat = 3 ↔ ∃ a nnn, r = .sysUnsupported a nnn)) ∧
    (s.run = .running → (∃ t, step s = .next t) ∧ (∀ e, ∃ t, stepEvent e s = .next t) ∧
      s.haltedOut = false ∧ s.faultReasonOut = 0)

/-- R262, R264: a tick event decrements both timers, floored at 0, and nothing else; the tone stays on exactly while the
sound timer is above 0. -/
def Obligations.TickDecrementsBothTimers : Prop :=
  ∀ s : State, s.run = .running → s.nextInput = .tick →
    ∃ t, step s = .next t ∧ t.dt.toNat = s.dt.toNat - 1 ∧ t.st.toNat = s.st.toNat - 1 ∧
      (t.toneOut = true ↔ s.st.toNat > 1) ∧ t.inputs = s.inputs.tail ∧ SameOutside [.dt, .st, .inputs] s t

/-- R44, R307, R341: a key change sets the keypad level and nothing else; it diverts no control. -/
def Obligations.KeyChangeSetsOnlyKeypadLevel : Prop :=
  ∀ (s : State) (k : BitVec 16), s.run = .running → s.nextInput = .keys k →
    ∃ t, step s = .next t ∧ t.keys = k ∧ t.inputs = s.inputs.tail ∧ SameOutside [.keys, .inputs] s t

/-! ## Control transfer (spec/40) -/

/-- R120: SYS does nothing, or ends the run with the recorded values of R305, as configured. -/
def Obligations.SysIsNoOpOrFatal : Prop :=
  ∀ nnn : Addr,
    (nnn.toNat ≠ 0x0E0 → nnn.toNat ≠ 0x0EE → decode (BitVec.ofNat 16 nnn.toNat) = .sys nnn) ∧
    ∀ s : State,
      (s.cfg.sysAction = .nop → exec (.sys nnn) s = .next s) ∧
      (s.cfg.sysAction = .fault → ∃ a t, exec (.sys nnn) s = .next t ∧ a.toNat = (s.pc.toNat + 4094) % 4096 ∧
        t.run = .halted (.sysUnsupported a nnn) ∧ SameOutside [.run] s t)

/-- R129: every unmatched word decodes to INVALID and executes as a no-op. -/
def Obligations.InvalidWordsAreNoOps : Prop :=
  (∀ w : Word, invalidWord w = true → decode w = .invalid w) ∧
  ∀ (w : Word) (s : State), exec (.invalid w) s = .next s

/-- R121: RET pops the last return address into pc; on an empty stack it is fatal and changes nothing else. -/
def Obligations.RetPopsReturnAddressOrIsFatal : Prop :=
  decode 0x00EE = .ret ∧
  ∀ s : State,
    (∀ rest w, s.stack = rest ++ [w] → ∃ t, exec .ret s = .next t ∧ t.pc.toNat = w.toNat % 4096 ∧ t.stack = rest ∧
      SameOutside [.pc, .stack] s t) ∧
    (s.stack = [] → ∃ a t, exec .ret s = .next t ∧ a.toNat = (s.pc.toNat + 4094) % 4096 ∧
      t.run = .halted (.stackUnderflow a) ∧ SameOutside [.run] s t)

/-- R122: JP sets pc to the address, odd or even. -/
def Obligations.JpSetsProgramCounter : Prop :=
  ∀ nnn : Addr, decode (BitVec.ofNat 16 (0x1000 + nnn.toNat)) = .jp nnn ∧
    ∀ s : State, ∃ t, exec (.jp nnn) s = .next t ∧ t.pc.toNat = nnn.toNat ∧ SameOutside [.pc] s t

/-- R123: CALL pushes the advanced pc and jumps; on a full stack of finite depth it is fatal before anything is
written. -/
def Obligations.CallPushesReturnAddressOrIsFatal : Prop :=
  ∀ nnn : Addr, decode (BitVec.ofNat 16 (0x2000 + nnn.toNat)) = .call nnn ∧
    ∀ s : State,
      ((∀ d, s.cfg.stackDepth = some d → s.stack.length < d) →
        ∃ t, exec (.call nnn) s = .next t ∧ t.stack = s.stack ++ [s.pc] ∧ t.pc.toNat = nnn.toNat ∧
          SameOutside [.pc, .stack] s t) ∧
      (∀ d, s.cfg.stackDepth = some d → s.stack.length = d →
        ∃ a t, exec (.call nnn) s = .next t ∧ a.toNat = (s.pc.toNat + 4094) % 4096 ∧
          t.run = .halted (.stackOverflow a nnn) ∧ SameOutside [.run] s t)

/-- R124: JP_OFF adds V0 (legacy) or the register of the address's own top nibble (modern); the sum wraps. -/
def Obligations.JpOffAddsOffsetRegister : Prop :=
  ∀ nnn : Addr, decode (BitVec.ofNat 16 (0xB000 + nnn.toNat)) = .jpOff nnn ∧
    ∀ (s : State) (r : Nibble), r.toNat = nnn.toNat / 256 →
      ∃ t, exec (.jpOff nnn) s = .next t ∧
        t.pc.toNat = (nnn.toNat + (if s.cfg.jumpV0Legacy then s.readV 0#4 else s.readV r).toNat) % 4096 ∧
        SameOutside [.pc] s t

/-- R125, R126: SE_IMM and SNE_IMM skip exactly two bytes when Vx equals, or differs from, the constant. -/
def Obligations.ImmediateSkipsMovePcOnCondition : Prop :=
  ∀ (x : Nibble) (kk : Byte),
    decode (BitVec.ofNat 16 (0x3000 + x.toNat * 256 + kk.toNat)) = .seImm x kk ∧
    decode (BitVec.ofNat 16 (0x4000 + x.toNat * 256 + kk.toNat)) = .sneImm x kk ∧
    ∀ s : State,
      (∃ t, exec (.seImm x kk) s = .next t ∧ SameOutside [.pc] s t ∧
        t.pc.toNat = if (s.readV x).toNat = kk.toNat then (s.pc.toNat + 2) % 4096 else s.pc.toNat) ∧
      (∃ t, exec (.sneImm x kk) s = .next t ∧ SameOutside [.pc] s t ∧
        t.pc.toNat = if (s.readV x).toNat = kk.toNat then s.pc.toNat else (s.pc.toNat + 2) % 4096)

/-- R127, R128: SE_REG and SNE_REG skip exactly two bytes when the registers are equal, or differ. -/
def Obligations.RegisterSkipsMovePcOnCondition : Prop :=
  ∀ x y : Nibble,
    decode (BitVec.ofNat 16 (0x5000 + x.toNat * 256 + y.toNat * 16)) = .seReg x y ∧
    decode (BitVec.ofNat 16 (0x9000 + x.toNat * 256 + y.toNat * 16)) = .sneReg x y ∧
    ∀ s : State,
      (∃ t, exec (.seReg x y) s = .next t ∧ SameOutside [.pc] s t ∧
        t.pc.toNat = if (s.readV x).toNat = (s.readV y).toNat then (s.pc.toNat + 2) % 4096 else s.pc.toNat) ∧
      (∃ t, exec (.sneReg x y) s = .next t ∧ SameOutside [.pc] s t ∧
        t.pc.toNat = if (s.readV x).toNat = (s.readV y).toNat then s.pc.toNat else (s.pc.toNat + 2) % 4096)

/-- R121, R123: RET from the stack that a CALL left resumes at the instruction after the CALL, with the stack as before
the CALL, whatever else happened between. -/
def Obligations.RetResumesAfterCall : Prop :=
  ∀ (nnn : Addr) (s t u : State), s.pc.toNat < 4096 → exec (.call nnn) s = .next t → t.run = s.run →
    s.run = .running → u.stack = t.stack →
    ∃ v, exec .ret u = .next v ∧ v.pc = s.pc ∧ v.stack = s.stack

/-! ## Register loads, arithmetic, bitwise, shifts, random (spec/41) -/

/-- R150, R152: LD_IMM and LD_REG write Vx and no other register. -/
def Obligations.LoadsWriteOnlyDestination : Prop :=
  (∀ (x : Nibble) (kk : Byte),
    decode (BitVec.ofNat 16 (0x6000 + x.toNat * 256 + kk.toNat)) = .ldImm x kk ∧
    ∀ s : State, ∃ t, exec (.ldImm x kk) s = .next t ∧ SameOutside [.v] s t ∧
      ∀ j, t.readV j = if j = x then kk else s.readV j) ∧
  (∀ x y : Nibble,
    decode (BitVec.ofNat 16 (0x8000 + x.toNat * 256 + y.toNat * 16)) = .ldReg x y ∧
    ∀ s : State, ∃ t, exec (.ldReg x y) s = .next t ∧ SameOutside [.v] s t ∧
      ∀ j, t.readV j = if j = x then s.readV y else s.readV j)

/-- R151: ADD_IMM wraps mod 256 and writes no carry. -/
def Obligations.AddImmWrapsWithoutCarry : Prop :=
  ∀ (x : Nibble) (kk : Byte),
    decode (BitVec.ofNat 16 (0x7000 + x.toNat * 256 + kk.toNat)) = .addImm x kk ∧
    ∀ s : State, ∃ t, exec (.addImm x kk) s = .next t ∧ SameOutside [.v] s t ∧
      (t.readV x).toNat = ((s.readV x).toNat + kk.toNat) % 256 ∧ ∀ j, j ≠ x → t.readV j = s.readV j

/-- R153, R154, R155: OR, AND and XOR combine Vx and Vy bit by bit into Vx and write no flag. -/
def Obligations.BitwiseOpsCombineBits : Prop :=
  ∀ x y : Nibble,
    decode (BitVec.ofNat 16 (0x8001 + x.toNat * 256 + y.toNat * 16)) = .orReg x y ∧
    decode (BitVec.ofNat 16 (0x8002 + x.toNat * 256 + y.toNat * 16)) = .andReg x y ∧
    decode (BitVec.ofNat 16 (0x8003 + x.toNat * 256 + y.toNat * 16)) = .xorReg x y ∧
    ∀ s : State,
      (∃ t, exec (.orReg x y) s = .next t ∧ SameOutside [.v] s t ∧ (∀ j, j ≠ x → t.readV j = s.readV j) ∧
        ∀ k, (t.readV x).getLsbD k = ((s.readV x).getLsbD k || (s.readV y).getLsbD k)) ∧
      (∃ t, exec (.andReg x y) s = .next t ∧ SameOutside [.v] s t ∧ (∀ j, j ≠ x → t.readV j = s.readV j) ∧
        ∀ k, (t.readV x).getLsbD k = ((s.readV x).getLsbD k && (s.readV y).getLsbD k)) ∧
      (∃ t, exec (.xorReg x y) s = .next t ∧ SameOutside [.v] s t ∧ (∀ j, j ≠ x → t.readV j = s.readV j) ∧
        ∀ k, (t.readV x).getLsbD k = ((s.readV x).getLsbD k != (s.readV y).getLsbD k))

/-- R156, R142: ADD_REG wraps mod 256 and sets VF to the carry of the exact sum, which wins when x = F. -/
def Obligations.AddRegWrapsAndSetsCarry : Prop :=
  ∀ x y : Nibble,
    decode (BitVec.ofNat 16 (0x8004 + x.toNat * 256 + y.toNat * 16)) = .addReg x y ∧
    ∀ s : State, ∃ t, exec (.addReg x y) s = .next t ∧ SameOutside [.v] s t ∧
      (x ≠ 0xF#4 → (t.readV x).toNat = ((s.readV x).toNat + (s.readV y).toNat) % 256) ∧
      (t.readV 0xF#4).toNat = (if (s.readV x).toNat + (s.readV y).toNat > 255 then 1 else 0) ∧
      ∀ j, j ≠ x → j ≠ 0xF#4 → t.readV j = s.readV j

/-- R157, R142: SUB leaves Vx - Vy mod 256 and sets VF to 1 exactly when Vx > Vy. -/
def Obligations.SubWrapsAndSetsNoBorrow : Prop :=
  ∀ x y : Nibble,
    decode (BitVec.ofNat 16 (0x8005 + x.toNat * 256 + y.toNat * 16)) = .sub x y ∧
    ∀ s : State, ∃ t, exec (.sub x y) s = .next t ∧ SameOutside [.v] s t ∧
      (x ≠ 0xF#4 → ((t.readV x).toNat : Int) = ((s.readV x).toNat - (s.readV y).toNat : Int) % 256) ∧
      (t.readV 0xF#4).toNat = (if (s.readV x).toNat > (s.readV y).toNat then 1 else 0) ∧
      ∀ j, j ≠ x → j ≠ 0xF#4 → t.readV j = s.readV j

/-- R159, R142: SUBN leaves Vy - Vx mod 256 in Vx and sets VF to 1 exactly when Vy > Vx. -/
def Obligations.SubnWrapsAndSetsNoBorrow : Prop :=
  ∀ x y : Nibble,
    decode (BitVec.ofNat 16 (0x8007 + x.toNat * 256 + y.toNat * 16)) = .subn x y ∧
    ∀ s : State, ∃ t, exec (.subn x y) s = .next t ∧ SameOutside [.v] s t ∧
      (x ≠ 0xF#4 → ((t.readV x).toNat : Int) = ((s.readV y).toNat - (s.readV x).toNat : Int) % 256) ∧
      (t.readV 0xF#4).toNat = (if (s.readV y).toNat > (s.readV x).toNat then 1 else 0) ∧
      ∀ j, j ≠ x → j ≠ 0xF#4 → t.readV j = s.readV j

/-- R158, R142: SHR halves its source (Vy in legacy mode, Vx in modern mode) into Vx; VF gets the bit shifted out. -/
def Obligations.ShrHalvesSourceAndKeepsLowBit : Prop :=
  ∀ x y : Nibble,
    decode (BitVec.ofNat 16 (0x8006 + x.toNat * 256 + y.toNat * 16)) = .shr x y ∧
    ∀ (s : State) (a : Byte), a = (if s.cfg.shiftLegacy then s.readV y else s.readV x) →
      ∃ t, exec (.shr x y) s = .next t ∧ SameOutside [.v] s t ∧
        (x ≠ 0xF#4 → (t.readV x).toNat = a.toNat / 2) ∧ (t.readV 0xF#4).toNat = a.toNat % 2 ∧
        ∀ j, j ≠ x → j ≠ 0xF#4 → t.readV j = s.readV j

/-- R160, R142: SHL doubles its source mod 256 into Vx; VF gets bit 7 of the source. -/
def Obligations.ShlDoublesSourceAndKeepsHighBit : Prop :=
  ∀ x y : Nibble,
    decode (BitVec.ofNat 16 (0x800E + x.toNat * 256 + y.toNat * 16)) = .shl x y ∧
    ∀ (s : State) (a : Byte), a = (if s.cfg.shiftLegacy then s.readV y else s.readV x) →
      ∃ t, exec (.shl x y) s = .next t ∧ SameOutside [.v] s t ∧
        (x ≠ 0xF#4 → (t.readV x).toNat = a.toNat * 2 % 256) ∧ (t.readV 0xF#4).toNat = a.toNat / 128 ∧
        ∀ j, j ≠ x → j ≠ 0xF#4 → t.readV j = s.readV j

/-- R161, R45: RND masks a free byte (log 4) bit by bit into Vx; the draw is used up. -/
def Obligations.RndMasksFreeByte : Prop :=
  ∀ (x : Nibble) (kk : Byte),
    decode (BitVec.ofNat 16 (0xC000 + x.toNat * 256 + kk.toNat)) = .rnd x kk ∧
    ∀ s : State, ∃ t, exec (.rnd x kk) s = .next t ∧ SameOutside [.v, .draws] s t ∧
      (∀ k, (t.readV x).getLsbD k = ((Config.freeRand s.draws).getLsbD k && kk.getLsbD k)) ∧
      t.draws = s.draws + 1 ∧ ∀ j, j ≠ x → t.readV j = s.readV j

/-! ## Index register and memory transfer (spec/42) -/

/-- R190: LD_I sets I to the 12-bit address. -/
def Obligations.LdISetsIndex : Prop :=
  ∀ nnn : Addr, decode (BitVec.ofNat 16 (0xA000 + nnn.toNat)) = .ldI nnn ∧
    ∀ s : State, ∃ t, exec (.ldI nnn) s = .next t ∧ t.i.toNat = nnn.toNat ∧ SameOutside [.i] s t

/-- R191: ADD_I reduces I mod 4096 always, and writes VF only when the configuration enables it. -/
def Obligations.AddIReducesIndexAndFlagsByConfiguration : Prop :=
  ∀ x : Nibble, decode (BitVec.ofNat 16 (0xF01E + x.toNat * 256)) = .addI x ∧
    ∀ s : State, ∃ t, exec (.addI x) s = .next t ∧ SameOutside [.v, .i] s t ∧
      t.i.toNat = (s.i.toNat + (s.readV x).toNat) % 4096 ∧ (∀ j, j ≠ 0xF#4 → t.readV j = s.readV j) ∧
      (s.cfg.indexOverflowFlag = false → t.readV 0xF#4 = s.readV 0xF#4) ∧
      (s.cfg.indexOverflowFlag = true →
        (t.readV 0xF#4).toNat = if s.i.toNat + (s.readV x).toNat > 0x0FFF then 1 else 0)

/-- R192: LD_F points I at the glyph of the low nibble of Vx. -/
def Obligations.LdFPointsAtGlyph : Prop :=
  ∀ x : Nibble, decode (BitVec.ofNat 16 (0xF029 + x.toNat * 256)) = .ldF x ∧
    ∀ s : State, ∃ t, exec (.ldF x) s = .next t ∧ SameOutside [.i] s t ∧
      t.i.toNat = (s.cfg.fontBase.toNat + 5 * ((s.readV x).toNat &&& 0xF)) % 4096

/-- R193: LD_B stores the three decimal digits of Vx at I, I+1, I+2 mod 4096, hundreds first, and no other byte. -/
def Obligations.LdBStoresDecimalDigits : Prop :=
  ∀ x : Nibble, decode (BitVec.ofNat 16 (0xF033 + x.toNat * 256)) = .ldB x ∧
    ∀ s : State, ∃ t, exec (.ldB x) s = .next t ∧ SameOutside [.heap] s t ∧
      (t.readByte s.i.toNat).toNat = (s.readV x).toNat / 100 ∧
      (t.readByte (s.i.toNat + 1)).toNat = (s.readV x).toNat / 10 % 10 ∧
      (t.readByte (s.i.toNat + 2)).toNat = (s.readV x).toNat % 10 ∧
      ∀ a, (∀ k < 3, a % 4096 ≠ (s.i.toNat + k) % 4096) → t.readByte a = s.readByte a

/-- R194: LD_MEM_VX stores V0..Vx from I on, and no other byte; I advances as configured. -/
def Obligations.LdMemVxStoresRegisterBlock : Prop :=
  ∀ x : Nibble, decode (BitVec.ofNat 16 (0xF055 + x.toNat * 256)) = .ldMemVx x ∧
    ∀ s : State, ∃ t, exec (.ldMemVx x) s = .next t ∧ SameOutside [.heap, .i] s t ∧
      (∀ k : Nibble, k.toNat ≤ x.toNat → t.readByte (s.i.toNat + k.toNat) = s.readV k) ∧
      (∀ a, (∀ k ≤ x.toNat, a % 4096 ≠ (s.i.toNat + k) % 4096) → t.readByte a = s.readByte a) ∧
      t.i.toNat = if s.cfg.loadStoreIndexAdvance then
          (s.i.toNat + x.toNat + 1 - (if s.cfg.legacyAdvanceMinusOne then 1 else 0)) % 65536
        else s.i.toNat

/-- R195: LD_VX_MEM loads V0..Vx from I on, every address from the value I had at the start; I advances as configured. -/
def Obligations.LdVxMemLoadsRegisterBlock : Prop :=
  ∀ x : Nibble, decode (BitVec.ofNat 16 (0xF065 + x.toNat * 256)) = .ldVxMem x ∧
    ∀ s : State, ∃ t, exec (.ldVxMem x) s = .next t ∧ SameOutside [.v, .i] s t ∧
      (∀ k : Nibble, t.readV k =
        if k.toNat ≤ x.toNat then s.readByte (s.i.toNat + k.toNat) else s.readV k) ∧
      t.i.toNat = if s.cfg.loadStoreIndexAdvance then
          (s.i.toNat + x.toNat + 1 - (if s.cfg.legacyAdvanceMinusOne then 1 else 0)) % 65536
        else s.i.toNat

/-- R196: storing V0..Vx and loading them from the same address, the block not written between, gives back the
registers, in every index-advance mode. -/
def Obligations.StoredBlockLoadsBack : Prop :=
  ∀ (x : Nibble) (s t u : State), exec (.ldMemVx x) s = .next t → u.i = s.i →
    (∀ k ≤ x.toNat, u.readByte (s.i.toNat + k) = t.readByte (s.i.toNat + k)) →
    ∃ v, exec (.ldVxMem x) u = .next v ∧ ∀ k : Nibble, k.toNat ≤ x.toNat → v.readV k = s.readV k

/-- R66: what a store of the machine (LD_MEM_VX, LD_B) puts over one or both bytes of the following instruction is what
the next fetch reads there; a byte it does not reach is fetched as before. -/
def Obligations.StoreIsSeenByNextFetch : Prop :=
  ∀ (x : Nibble) (s : State),
    (∃ t, exec (.ldMemVx x) s = .next t ∧
      FetchSeesBlock s t ((List.range (x.toNat + 1)).map fun k => s.readV (BitVec.ofNat 4 k))) ∧
    ∃ t, exec (.ldB x) s = .next t ∧
      FetchSeesBlock s t ([(s.readV x).toNat / 100, (s.readV x).toNat / 10 % 10, (s.readV x).toNat % 10].map
        (BitVec.ofNat 8))

/-! ## Display (spec/43) -/

/-- R220: CLS clears every pixel and writes no flag. -/
def Obligations.ClsClearsEveryPixel : Prop :=
  decode 0x00E0 = .cls ∧
  ∀ s : State, ∃ t, exec .cls s = .next t ∧ (∀ c r, t.grid.pixel c r = false) ∧ SameOutside [.grid] s t

/-- R221, R223, R227: DRW XORs the sprite's pixels into the grid and sets VF to 1 exactly when a set sprite bit met a set
pixel; `drawCovers` says which pixels the sprite's set bits stand on (origin, bit order, column wrap, row clip or wrap). -/
def Obligations.DrwXorsSpriteAndFlagsCollision : Prop :=
  ∀ x y n : Nibble,
    decode (BitVec.ofNat 16 (0xD000 + x.toNat * 256 + y.toNat * 16 + n.toNat)) = .drw x y n ∧
    ∀ s : State, ∃ t, exec (.drw x y n) s = .next t ∧ SameOutside [.v, .grid] s t ∧
      (∀ c r, t.grid.pixel c r = (s.grid.pixel c r ^^ s.drawCovers x y n c r)) ∧
      ((∃ c r, s.drawCovers x y n c r = true ∧ s.grid.pixel c r = true) → t.readV 0xF#4 = 1) ∧
      ((∀ c r, s.drawCovers x y n c r = true → s.grid.pixel c r = false) → t.readV 0xF#4 = 0) ∧
      ∀ j, j ≠ 0xF#4 → t.readV j = s.readV j

/-- R229: drawing the same sprite twice at the same position restores the grid, and the second draw collides exactly
when the first one set some pixel that was clear; on a clear grid the first draw does not collide. -/
def Obligations.DrawingTwiceRestoresGrid : Prop :=
  ∀ (x y n : Nibble) (s t u : State), exec (.drw x y n) s = .next t →
    exec (.drw x y n) (t.setV s.v) = .next u →
    (∀ c r, u.grid.pixel c r = s.grid.pixel c r) ∧
    (u.readV 0xF#4 = 1 ↔ ∃ c r, s.drawCovers x y n c r = true ∧ s.grid.pixel c r = false) ∧
    ((∀ c r, s.grid.pixel c r = false) → t.readV 0xF#4 = 0)

/-- R226: with vertical clipping, a draw changes no pixel above its origin row or below its last row. -/
def Obligations.ClippedSpriteStaysInItsRows : Prop :=
  ∀ (x y n : Nibble) (s : State), s.cfg.spriteWrapY = false →
    ∃ t, exec (.drw x y n) s = .next t ∧
      ∀ c r, (r.val < (s.readV y).toNat % 32 ∨ (s.readV y).toNat % 32 + n.toNat ≤ r.val) →
        t.grid.pixel c r = s.grid.pixel c r

/-! ## Timers and keys (spec/44) -/

/-- R250, R251, R252, R264: the timer moves; the tone is on exactly while the sound timer is not 0, in every state, so a
nonzero write turns it on at once and a zero write turns it off. -/
def Obligations.TimerInstructionsMoveOneByte : Prop :=
  (∀ x : Nibble,
    decode (BitVec.ofNat 16 (0xF007 + x.toNat * 256)) = .ldVxDt x ∧
    decode (BitVec.ofNat 16 (0xF015 + x.toNat * 256)) = .ldDtVx x ∧
    decode (BitVec.ofNat 16 (0xF018 + x.toNat * 256)) = .ldStVx x ∧
    ∀ s : State,
      (∃ t, exec (.ldVxDt x) s = .next t ∧ SameOutside [.v] s t ∧
        ∀ j, t.readV j = if j = x then s.dt else s.readV j) ∧
      (∃ t, exec (.ldDtVx x) s = .next t ∧ SameOutside [.dt] s t ∧ t.dt = s.readV x) ∧
      (∃ t, exec (.ldStVx x) s = .next t ∧ SameOutside [.st] s t ∧ t.st = s.readV x ∧
        (t.toneOut = true ↔ (s.readV x).toNat ≠ 0))) ∧
  ∀ s : State, s.toneOut = true ↔ s.st.toNat ≠ 0

/-- R253, R254: SKP skips when Vx names a pressed key, SKNP when it does not; a value above 0xF names no key. -/
def Obligations.KeySkipsTestPressedKey : Prop :=
  ∀ x : Nibble,
    decode (BitVec.ofNat 16 (0xE09E + x.toNat * 256)) = .skp x ∧
    decode (BitVec.ofNat 16 (0xE0A1 + x.toNat * 256)) = .sknp x ∧
    ∀ s : State,
      (∃ t, exec (.skp x) s = .next t ∧ SameOutside [.pc] s t ∧
        t.pc.toNat = if (s.readV x).toNat ≤ 0xF ∧ s.keys.getLsbD (s.readV x).toNat = true
          then (s.pc.toNat + 2) % 4096 else s.pc.toNat) ∧
      (∃ t, exec (.sknp x) s = .next t ∧ SameOutside [.pc] s t ∧
        t.pc.toNat = if (s.readV x).toNat ≤ 0xF ∧ s.keys.getLsbD (s.readV x).toNat = true
          then s.pc.toNat else (s.pc.toNat + 2) % 4096)

/-- R255: LD_VX_K takes the code of some pressed key; while none is pressed it goes back to its own address and writes
nothing else. (Which of several pressed keys is a free choice, log 5.) -/
def Obligations.WaitForKeyTakesPressedKeyOrRepeats : Prop :=
  ∀ x : Nibble, decode (BitVec.ofNat 16 (0xF00A + x.toNat * 256)) = .ldVxK x ∧
    ∀ s : State,
      (s.keys = 0 → ∃ t, exec (.ldVxK x) s = .next t ∧ t.pc.toNat = (s.pc.toNat + 4094) % 4096 ∧
        SameOutside [.pc] s t) ∧
      (s.keys ≠ 0 → ∃ t k, exec (.ldVxK x) s = .next t ∧ k < 16 ∧ s.keys.getLsbD k = true ∧
        (t.readV x).toNat = k ∧ (∀ j, j ≠ x → t.readV j = s.readV j) ∧ SameOutside [.v, .draws] s t)

/-- R263: whatever a step does, DT does not rise unless the step executes LD_DT_VX. -/
def Obligations.DelayTimerRisesOnlyByWrite : Prop :=
  ∀ s t : State, step s = .next t → s.dt.toNat < t.dt.toNat →
    s.nextInput = .step ∧ ∃ x, decode s.fetchWord = .ldDtVx x

/-- R261: a call at least 1/60 s after the reference time produces one decrement and advances the reference time by one
interval, an earlier call produces none and leaves it; and however the driver is called, the decrements it has produced
never exceed the whole 1/60 s intervals elapsed at the latest call, and are exactly the intervals its reference time has
advanced by. (The driver stands outside the block, log 10.) -/
def Obligations.DriverNeverOutrunsWallClock : Prop :=
  ∀ unitsPerSecond : Nat, 0 < unitsPerSecond →
    (∀ (now : Nat) (d : TimerDriver),
      let sinceReference : ℚ := now / unitsPerSecond - d.intervals / 60
      (1 / 60 ≤ sinceReference → TimerDriver.call unitsPerSecond now d = ({ intervals := d.intervals + 1 }, [Input.tick])) ∧
      (sinceReference < 1 / 60 → TimerDriver.call unitsPerSecond now d = (d, []))) ∧
    ∀ (latest : Nat) (times : List Nat), (∀ now ∈ times, now ≤ latest) →
      let r := TimerDriver.start.calls unitsPerSecond times
      r.2.length ≤ latest * 60 / unitsPerSecond ∧ r.1.intervals = r.2.length ∧ ∀ e ∈ r.2, e = Input.tick

/-! ## The whole machine -/

/-- R24, R28, R31, R62 and the heap's canonical form: every step, and every event in any state, keeps the invariant. -/
def Obligations.EveryStepKeepsMachineInvariant : Prop :=
  (∀ s t : State, s.Inv → step s = .next t → t.Inv) ∧
  ∀ (e : Input) (s t : State), s.Inv → stepEvent e s = .next t → t.Inv

/-- R38, R330: the reset state has the invariant under every configuration. -/
def Obligations.ResetHasMachineInvariant : Prop :=
  ∀ cfg : Config, (State.resetWith cfg).Inv

/-- R24, R28, R31, R62, R331, R341: every state reached from any boot, under any interleaving of steps, ticks and key
changes, and all along the run that any endless sequence of events drives, has the invariant. -/
def Obligations.EveryRunKeepsMachineInvariant : Prop :=
  ∀ s : State, StartOfRun s → (∀ t, Reaches s t → t.Inv) ∧ ∀ (env : Nat → Input) (n : Nat), (s.drivenBy env n).Inv

/-- R34, R42: no step and no event changes the configuration. -/
def Obligations.ConfigurationIsFixedForRun : Prop :=
  ∀ s : State, (∀ t, Reaches s t → t.cfg = s.cfg) ∧ ∀ (env : Nat → Input) (n : Nat), (s.drivenBy env n).cfg = s.cfg

/-- R33: only CLS and DRW write the grid. -/
def Obligations.OnlyClsAndDrwWriteGrid : Prop :=
  ∀ (i : Instr) (s t : State), exec i s = .next t → t.grid ≠ s.grid → i = .cls ∨ ∃ x y n, i = .drw x y n

/-- R69: only LD_B and LD_MEM_VX write the heap. -/
def Obligations.OnlyStoresWriteHeap : Prop :=
  ∀ (i : Instr) (s t : State), exec i s = .next t → (∃ a, t.readByte a ≠ s.readByte a) →
    (∃ x, i = .ldB x) ∨ ∃ x, i = .ldMemVx x

/-- R31, R61: only CALL and RET change the stack, CALL by appending one value, RET by removing the last. -/
def Obligations.OnlyCallAndRetChangeStack : Prop :=
  ∀ (i : Instr) (s t : State), exec i s = .next t → t.stack ≠ s.stack →
    (∃ nnn, i = .call nnn ∧ t.stack = s.stack ++ [s.pc]) ∨ (i = .ret ∧ ∃ w, s.stack = t.stack ++ [w])

/-- R23: an instruction that changes VF is one of those that write it as a flag, or names it as its destination. -/
def Obligations.OnlyListedInstructionsWriteVF : Prop :=
  ∀ (i : Instr) (s t : State), exec i s = .next t → t.readV 0xF#4 ≠ s.readV 0xF#4 →
    (∃ x y, i = .addReg x y ∨ i = .sub x y ∨ i = .subn x y ∨ i = .shr x y ∨ i = .shl x y) ∨
    (∃ x y n, i = .drw x y n) ∨
    (∃ x, i = .addI x ∧ s.cfg.indexOverflowFlag = true) ∨
    (∃ kk, i = .ldImm 0xF#4 kk ∨ i = .addImm 0xF#4 kk ∨ i = .rnd 0xF#4 kk) ∨
    (∃ y, i = .ldReg 0xF#4 y ∨ i = .orReg 0xF#4 y ∨ i = .andReg 0xF#4 y ∨ i = .xorReg 0xF#4 y) ∨
    i = .ldVxDt 0xF#4 ∨ i = .ldVxK 0xF#4 ∨ i = .ldVxMem 0xF#4

/-- R301, R306, R308: every instruction answers a next state in every state, and only RET, CALL and SYS can end the run,
leaving everything but the run state as it was. -/
def Obligations.OnlyRetCallSysEndRun : Prop :=
  ∀ (i : Instr) (s : State), ∃ t, exec i s = .next t ∧
    (t.run ≠ s.run →
      (i = .ret ∨ (∃ nnn, i = .call nnn) ∨ ∃ nnn, i = .sys nnn) ∧ (∃ r, t.run = .halted r) ∧ SameOutside [.run] s t)

/-- R345: at a self-jump, a step changes nothing but DT and ST (a tick), the keypad level (a key change) and the
model's own event list, and the block is still at the end. -/
def Obligations.EndOfRunIsStable : Prop :=
  ∀ (s t : State) (p : Addr), s.AtEnd p → step s = .next t →
    t.AtEnd p ∧ SameOutside [.dt, .st, .keys, .inputs] s t ∧
    (s.nextInput = .step → SameOutside [.inputs] s t)

/-- R51, R56, R57, R331: boot puts the image at the origin, the font table where the image does not overlie it, and 0
elsewhere, and refuses an image that does not fit. (A font that would pass 0xFFF wraps mod 4096: the model's reading,
log 6.) -/
def Obligations.BootPlacesFontAndImage : Prop :=
  ∀ (cfg : Config) (image : List Byte),
    (boot cfg image = none ↔ image.length > 4096 - cfg.programOrigin.toNat) ∧
    ∀ s, boot cfg image = some s →
      s.pc.toNat = cfg.programOrigin.toNat ∧ SameOutside [.heap] (State.resetWith cfg) s ∧
      (∀ j (h : j < image.length), s.readByte (cfg.programOrigin.toNat + j) = image[j]) ∧
      ∀ a < 4096, (∀ j < image.length, a ≠ cfg.programOrigin.toNat + j) →
        (∀ d (hd : d < 16) r (hr : r < 5), a = (cfg.fontBase.toNat + 5 * d + r) % 4096 →
          s.readByte a = (cfg.fontTable[d])[r]) ∧
        ((∀ k < 80, a ≠ (cfg.fontBase.toNat + k) % 4096) → s.readByte a = 0)

/-- R38, R51, R57, R330: the values reset leaves, under every configuration. They are the spec's own decisions D2 and D4,
but for a FONT_BASE above 0xFB0, where the font and the zero bytes stand as the model reads R51 and R57: wrapped mod 4096
(log 6). The keypad level, the draw counter and the event list at reset are the model's (log 3) and are not stated. -/
def Obligations.ResetLeavesListedValues : Prop :=
  (∀ cfg : Config,
    let s := State.resetWith cfg
    (∀ j, s.readV j = 0) ∧ s.i = 0 ∧ s.dt = 0 ∧ s.st = 0 ∧ s.pc.toNat = cfg.programOrigin.toNat ∧ s.stack = [] ∧
    (∀ c r, s.grid.pixel c r = false) ∧ s.run = .running ∧ s.cfg = cfg ∧ s.toneOut = false ∧
    (∀ d (hd : d < 16) r (hr : r < 5), s.readByte (cfg.fontBase.toNat + 5 * d + r) = (cfg.fontTable[d])[r]) ∧
    ∀ a < 4096, (∀ k < 80, a ≠ (cfg.fontBase.toNat + k) % 4096) → s.readByte a = 0) ∧
  State.reset.pc = 0x200

/-- R341, R262, R263, D24: under weakly fair ticks, a run that stays running and executes no LD_DT_VX from some event on
brings DT to 0, and DT stays there; and without ticks no such thing follows: at a self-jump (R345) the endless run in which
no tick comes is admitted, the block runs on, and DT never moves. -/
def Obligations.FairTicksRunDelayTimerOut : Prop :=
  (∀ (env : Nat → Input) (s : State) (n : Nat), TicksWeaklyFair env s →
    (∀ m, (s.drivenBy env m).run = .running) →
    (∀ m, n ≤ m → env m = .step → ∀ x, decode (s.drivenBy env m).fetchWord ≠ .ldDtVx x) →
    ∃ m, n ≤ m ∧ ∀ k, m ≤ k → (s.drivenBy env k).dt = 0) ∧
  ∀ (env : Nat → Input) (s : State) (p : Addr), s.AtEnd p → (∀ m, env m ≠ .tick) →
    ∀ n, (s.drivenBy env n).AtEnd p ∧ (s.drivenBy env n).dt = s.dt
end

