-- ==== Sys2Proof/Laws/Decode.lean ====
section
/-! SUPPORT. The fields of an encoded word, and the byte-level reader. -/

namespace Sys2Proof

/-! ## Fields of the three word shapes (R81, R82) -/

theorem getLsbD_encodeAddr (f : Nibble) (nnn : Addr) (j : Nat) :
    (encodeAddr f nnn).getLsbD j = if j < 12 then nnn.getLsbD j else f.getLsbD (j - 12) :=
  BitVec.getLsbD_append

theorem getLsbD_encodeByte (f x : Nibble) (kk : Byte) (j : Nat) :
    (encodeByte f x kk).getLsbD j =
      if j < 8 then kk.getLsbD j else if j - 8 < 4 then x.getLsbD (j - 8) else f.getLsbD (j - 8 - 4) := by
  have h : (encodeByte f x kk).getLsbD j = if j < 8 then kk.getLsbD j else (f ++ x).getLsbD (j - 8) :=
    BitVec.getLsbD_append
  rw [h, BitVec.getLsbD_append]

theorem getLsbD_encodePair (f x y n : Nibble) (j : Nat) :
    (encodePair f x y n).getLsbD j =
      if j < 4 then n.getLsbD j else if j - 4 < 4 then y.getLsbD (j - 4)
      else if j - 4 - 4 < 4 then x.getLsbD (j - 4 - 4) else f.getLsbD (j - 4 - 4 - 4) := by
  have h : (encodePair f x y n).getLsbD j = if j < 4 then n.getLsbD j else (f ++ x ++ y).getLsbD (j - 4) :=
    BitVec.getLsbD_append
  rw [h, BitVec.getLsbD_append, BitVec.getLsbD_append]

@[simp] theorem fieldF_encodeAddr (f : Nibble) (nnn : Addr) : fieldF (encodeAddr f nnn) = f := by
  ext j hj
  simp only [fieldF, BitVec.getElem_extractLsb', getLsbD_encodeAddr]
  simp [show ¬ 12 + j < 12 by omega, show 12 + j - 12 = j by omega, BitVec.getLsbD_eq_getElem hj]

@[simp] theorem fieldNNN_encodeAddr (f : Nibble) (nnn : Addr) : fieldNNN (encodeAddr f nnn) = nnn := by
  ext j hj
  simp only [fieldNNN, BitVec.getElem_extractLsb', getLsbD_encodeAddr]
  rw [Nat.zero_add, if_pos hj, BitVec.getLsbD_eq_getElem hj]

@[simp] theorem fieldF_encodeByte (f x : Nibble) (kk : Byte) : fieldF (encodeByte f x kk) = f := by
  ext j hj
  simp only [fieldF, BitVec.getElem_extractLsb', getLsbD_encodeByte]
  simp [show ¬ 12 + j < 8 by omega, show ¬ 12 + j - 8 < 4 by omega, show 12 + j - 8 - 4 = j by omega, BitVec.getLsbD_eq_getElem hj]

@[simp] theorem fieldX_encodeByte (f x : Nibble) (kk : Byte) : fieldX (encodeByte f x kk) = x := by
  ext j hj
  simp only [fieldX, BitVec.getElem_extractLsb', getLsbD_encodeByte]
  simp [show ¬ 8 + j < 8 by omega, hj, show 8 + j - 8 = j by omega]

@[simp] theorem fieldKK_encodeByte (f x : Nibble) (kk : Byte) : fieldKK (encodeByte f x kk) = kk := by
  ext j hj
  simp only [fieldKK, BitVec.getElem_extractLsb', getLsbD_encodeByte]
  rw [Nat.zero_add, if_pos hj, BitVec.getLsbD_eq_getElem hj]

@[simp] theorem fieldF_encodePair (f x y n : Nibble) : fieldF (encodePair f x y n) = f := by
  ext j hj
  simp only [fieldF, BitVec.getElem_extractLsb', getLsbD_encodePair]
  simp [show ¬ 12 + j < 4 by omega, show ¬ 12 + j - 4 < 4 by omega, show ¬ 12 + j - 4 - 4 < 4 by omega, show 12 + j - 4 - 4 - 4 = j by omega, BitVec.getLsbD_eq_getElem hj]

@[simp] theorem fieldX_encodePair (f x y n : Nibble) : fieldX (encodePair f x y n) = x := by
  ext j hj
  simp only [fieldX, BitVec.getElem_extractLsb', getLsbD_encodePair]
  simp [show ¬ 8 + j < 4 by omega, show ¬ 8 + j - 4 < 4 by omega, hj, show 8 + j - 4 - 4 = j by omega]

@[simp] theorem fieldY_encodePair (f x y n : Nibble) : fieldY (encodePair f x y n) = y := by
  ext j hj
  simp only [fieldY, BitVec.getElem_extractLsb', getLsbD_encodePair]
  simp [show ¬ 4 + j < 4 by omega, hj, show 4 + j - 4 = j by omega]

@[simp] theorem fieldN_encodePair (f x y n : Nibble) : fieldN (encodePair f x y n) = n := by
  ext j hj
  simp only [fieldN, BitVec.getElem_extractLsb', getLsbD_encodePair]
  rw [Nat.zero_add, if_pos hj, BitVec.getLsbD_eq_getElem hj]

/-! ## Bytes -/

/-- A word's two bytes are read back as the word (R52, R54). -/
@[simp] theorem wordOfBytes_bytesOfWord (w : Word) : wordOfBytes (w.extractLsb' 8 8) (w.extractLsb' 0 8) = w := by
  ext j hj
  have h : (wordOfBytes (w.extractLsb' 8 8) (w.extractLsb' 0 8)).getLsbD j =
      if j < 8 then (w.extractLsb' 0 8).getLsbD j else (w.extractLsb' 8 8).getLsbD (j - 8) := BitVec.getLsbD_append
  rw [← BitVec.getLsbD_eq_getElem hj, ← BitVec.getLsbD_eq_getElem hj, h]
  split
  · simp_all
  · simp [show j - 8 < 8 by omega, show 8 + (j - 8) = j by omega]

/-- The byte-level reader consumes exactly two bytes (R82, R98). -/
@[simp] theorem decodeBytes_bytesOfWord (w : Word) (rest : List Byte) :
    decodeBytes (bytesOfWord w ++ rest) = .ok (decode w, rest) := by
  simp [bytesOfWord, decodeBytes]

/-- On a whole table word the byte-level reader is the decoder. -/
theorem decodeTableWord_eq (nbits w : Nat) : decodeTableWord nbits w = some (decode (tableWord nbits w)) := by
  simp [decodeTableWord, bytesOfWord, decodeBytes]

end Sys2Proof
end

