-- ==== Sys2Proof/Laws/State.lean ====
section
/-! SUPPORT. One lemma per field per setter, each true by rfl: a proof reads a field of an updated state by `simp`. -/

namespace Sys2Proof.Machine

@[simp] theorem State.setV_v (s : State) (a : Vector Byte 16) : (s.setV a).v = a := rfl
@[simp] theorem State.setV_pc (s : State) (a : Vector Byte 16) : (s.setV a).pc = s.pc := rfl
@[simp] theorem State.setV_i (s : State) (a : Vector Byte 16) : (s.setV a).i = s.i := rfl
@[simp] theorem State.setV_dt (s : State) (a : Vector Byte 16) : (s.setV a).dt = s.dt := rfl
@[simp] theorem State.setV_st (s : State) (a : Vector Byte 16) : (s.setV a).st = s.st := rfl
@[simp] theorem State.setV_stack (s : State) (a : Vector Byte 16) : (s.setV a).stack = s.stack := rfl
@[simp] theorem State.setV_heap (s : State) (a : Vector Byte 16) : (s.setV a).heap = s.heap := rfl
@[simp] theorem State.setV_grid (s : State) (a : Vector Byte 16) : (s.setV a).grid = s.grid := rfl
@[simp] theorem State.setV_run (s : State) (a : Vector Byte 16) : (s.setV a).run = s.run := rfl
@[simp] theorem State.setV_cfg (s : State) (a : Vector Byte 16) : (s.setV a).cfg = s.cfg := rfl
@[simp] theorem State.setV_keys (s : State) (a : Vector Byte 16) : (s.setV a).keys = s.keys := rfl
@[simp] theorem State.setV_draws (s : State) (a : Vector Byte 16) : (s.setV a).draws = s.draws := rfl
@[simp] theorem State.setV_inputs (s : State) (a : Vector Byte 16) : (s.setV a).inputs = s.inputs := rfl

@[simp] theorem State.setPc_v (s : State) (a : Word) : (s.setPc a).v = s.v := rfl
@[simp] theorem State.setPc_pc (s : State) (a : Word) : (s.setPc a).pc = a := rfl
@[simp] theorem State.setPc_i (s : State) (a : Word) : (s.setPc a).i = s.i := rfl
@[simp] theorem State.setPc_dt (s : State) (a : Word) : (s.setPc a).dt = s.dt := rfl
@[simp] theorem State.setPc_st (s : State) (a : Word) : (s.setPc a).st = s.st := rfl
@[simp] theorem State.setPc_stack (s : State) (a : Word) : (s.setPc a).stack = s.stack := rfl
@[simp] theorem State.setPc_heap (s : State) (a : Word) : (s.setPc a).heap = s.heap := rfl
@[simp] theorem State.setPc_grid (s : State) (a : Word) : (s.setPc a).grid = s.grid := rfl
@[simp] theorem State.setPc_run (s : State) (a : Word) : (s.setPc a).run = s.run := rfl
@[simp] theorem State.setPc_cfg (s : State) (a : Word) : (s.setPc a).cfg = s.cfg := rfl
@[simp] theorem State.setPc_keys (s : State) (a : Word) : (s.setPc a).keys = s.keys := rfl
@[simp] theorem State.setPc_draws (s : State) (a : Word) : (s.setPc a).draws = s.draws := rfl
@[simp] theorem State.setPc_inputs (s : State) (a : Word) : (s.setPc a).inputs = s.inputs := rfl

@[simp] theorem State.setI_v (s : State) (a : Word) : (s.setI a).v = s.v := rfl
@[simp] theorem State.setI_pc (s : State) (a : Word) : (s.setI a).pc = s.pc := rfl
@[simp] theorem State.setI_i (s : State) (a : Word) : (s.setI a).i = a := rfl
@[simp] theorem State.setI_dt (s : State) (a : Word) : (s.setI a).dt = s.dt := rfl
@[simp] theorem State.setI_st (s : State) (a : Word) : (s.setI a).st = s.st := rfl
@[simp] theorem State.setI_stack (s : State) (a : Word) : (s.setI a).stack = s.stack := rfl
@[simp] theorem State.setI_heap (s : State) (a : Word) : (s.setI a).heap = s.heap := rfl
@[simp] theorem State.setI_grid (s : State) (a : Word) : (s.setI a).grid = s.grid := rfl
@[simp] theorem State.setI_run (s : State) (a : Word) : (s.setI a).run = s.run := rfl
@[simp] theorem State.setI_cfg (s : State) (a : Word) : (s.setI a).cfg = s.cfg := rfl
@[simp] theorem State.setI_keys (s : State) (a : Word) : (s.setI a).keys = s.keys := rfl
@[simp] theorem State.setI_draws (s : State) (a : Word) : (s.setI a).draws = s.draws := rfl
@[simp] theorem State.setI_inputs (s : State) (a : Word) : (s.setI a).inputs = s.inputs := rfl

@[simp] theorem State.setDt_v (s : State) (a : Byte) : (s.setDt a).v = s.v := rfl
@[simp] theorem State.setDt_pc (s : State) (a : Byte) : (s.setDt a).pc = s.pc := rfl
@[simp] theorem State.setDt_i (s : State) (a : Byte) : (s.setDt a).i = s.i := rfl
@[simp] theorem State.setDt_dt (s : State) (a : Byte) : (s.setDt a).dt = a := rfl
@[simp] theorem State.setDt_st (s : State) (a : Byte) : (s.setDt a).st = s.st := rfl
@[simp] theorem State.setDt_stack (s : State) (a : Byte) : (s.setDt a).stack = s.stack := rfl
@[simp] theorem State.setDt_heap (s : State) (a : Byte) : (s.setDt a).heap = s.heap := rfl
@[simp] theorem State.setDt_grid (s : State) (a : Byte) : (s.setDt a).grid = s.grid := rfl
@[simp] theorem State.setDt_run (s : State) (a : Byte) : (s.setDt a).run = s.run := rfl
@[simp] theorem State.setDt_cfg (s : State) (a : Byte) : (s.setDt a).cfg = s.cfg := rfl
@[simp] theorem State.setDt_keys (s : State) (a : Byte) : (s.setDt a).keys = s.keys := rfl
@[simp] theorem State.setDt_draws (s : State) (a : Byte) : (s.setDt a).draws = s.draws := rfl
@[simp] theorem State.setDt_inputs (s : State) (a : Byte) : (s.setDt a).inputs = s.inputs := rfl

@[simp] theorem State.setSt_v (s : State) (a : Byte) : (s.setSt a).v = s.v := rfl
@[simp] theorem State.setSt_pc (s : State) (a : Byte) : (s.setSt a).pc = s.pc := rfl
@[simp] theorem State.setSt_i (s : State) (a : Byte) : (s.setSt a).i = s.i := rfl
@[simp] theorem State.setSt_dt (s : State) (a : Byte) : (s.setSt a).dt = s.dt := rfl
@[simp] theorem State.setSt_st (s : State) (a : Byte) : (s.setSt a).st = a := rfl
@[simp] theorem State.setSt_stack (s : State) (a : Byte) : (s.setSt a).stack = s.stack := rfl
@[simp] theorem State.setSt_heap (s : State) (a : Byte) : (s.setSt a).heap = s.heap := rfl
@[simp] theorem State.setSt_grid (s : State) (a : Byte) : (s.setSt a).grid = s.grid := rfl
@[simp] theorem State.setSt_run (s : State) (a : Byte) : (s.setSt a).run = s.run := rfl
@[simp] theorem State.setSt_cfg (s : State) (a : Byte) : (s.setSt a).cfg = s.cfg := rfl
@[simp] theorem State.setSt_keys (s : State) (a : Byte) : (s.setSt a).keys = s.keys := rfl
@[simp] theorem State.setSt_draws (s : State) (a : Byte) : (s.setSt a).draws = s.draws := rfl
@[simp] theorem State.setSt_inputs (s : State) (a : Byte) : (s.setSt a).inputs = s.inputs := rfl

@[simp] theorem State.setStack_v (s : State) (a : List Word) : (s.setStack a).v = s.v := rfl
@[simp] theorem State.setStack_pc (s : State) (a : List Word) : (s.setStack a).pc = s.pc := rfl
@[simp] theorem State.setStack_i (s : State) (a : List Word) : (s.setStack a).i = s.i := rfl
@[simp] theorem State.setStack_dt (s : State) (a : List Word) : (s.setStack a).dt = s.dt := rfl
@[simp] theorem State.setStack_st (s : State) (a : List Word) : (s.setStack a).st = s.st := rfl
@[simp] theorem State.setStack_stack (s : State) (a : List Word) : (s.setStack a).stack = a := rfl
@[simp] theorem State.setStack_heap (s : State) (a : List Word) : (s.setStack a).heap = s.heap := rfl
@[simp] theorem State.setStack_grid (s : State) (a : List Word) : (s.setStack a).grid = s.grid := rfl
@[simp] theorem State.setStack_run (s : State) (a : List Word) : (s.setStack a).run = s.run := rfl
@[simp] theorem State.setStack_cfg (s : State) (a : List Word) : (s.setStack a).cfg = s.cfg := rfl
@[simp] theorem State.setStack_keys (s : State) (a : List Word) : (s.setStack a).keys = s.keys := rfl
@[simp] theorem State.setStack_draws (s : State) (a : List Word) : (s.setStack a).draws = s.draws := rfl
@[simp] theorem State.setStack_inputs (s : State) (a : List Word) : (s.setStack a).inputs = s.inputs := rfl

@[simp] theorem State.setHeap_v (s : State) (a : Memory) : (s.setHeap a).v = s.v := rfl
@[simp] theorem State.setHeap_pc (s : State) (a : Memory) : (s.setHeap a).pc = s.pc := rfl
@[simp] theorem State.setHeap_i (s : State) (a : Memory) : (s.setHeap a).i = s.i := rfl
@[simp] theorem State.setHeap_dt (s : State) (a : Memory) : (s.setHeap a).dt = s.dt := rfl
@[simp] theorem State.setHeap_st (s : State) (a : Memory) : (s.setHeap a).st = s.st := rfl
@[simp] theorem State.setHeap_stack (s : State) (a : Memory) : (s.setHeap a).stack = s.stack := rfl
@[simp] theorem State.setHeap_heap (s : State) (a : Memory) : (s.setHeap a).heap = a := rfl
@[simp] theorem State.setHeap_grid (s : State) (a : Memory) : (s.setHeap a).grid = s.grid := rfl
@[simp] theorem State.setHeap_run (s : State) (a : Memory) : (s.setHeap a).run = s.run := rfl
@[simp] theorem State.setHeap_cfg (s : State) (a : Memory) : (s.setHeap a).cfg = s.cfg := rfl
@[simp] theorem State.setHeap_keys (s : State) (a : Memory) : (s.setHeap a).keys = s.keys := rfl
@[simp] theorem State.setHeap_draws (s : State) (a : Memory) : (s.setHeap a).draws = s.draws := rfl
@[simp] theorem State.setHeap_inputs (s : State) (a : Memory) : (s.setHeap a).inputs = s.inputs := rfl

@[simp] theorem State.setGrid_v (s : State) (a : Grid) : (s.setGrid a).v = s.v := rfl
@[simp] theorem State.setGrid_pc (s : State) (a : Grid) : (s.setGrid a).pc = s.pc := rfl
@[simp] theorem State.setGrid_i (s : State) (a : Grid) : (s.setGrid a).i = s.i := rfl
@[simp] theorem State.setGrid_dt (s : State) (a : Grid) : (s.setGrid a).dt = s.dt := rfl
@[simp] theorem State.setGrid_st (s : State) (a : Grid) : (s.setGrid a).st = s.st := rfl
@[simp] theorem State.setGrid_stack (s : State) (a : Grid) : (s.setGrid a).stack = s.stack := rfl
@[simp] theorem State.setGrid_heap (s : State) (a : Grid) : (s.setGrid a).heap = s.heap := rfl
@[simp] theorem State.setGrid_grid (s : State) (a : Grid) : (s.setGrid a).grid = a := rfl
@[simp] theorem State.setGrid_run (s : State) (a : Grid) : (s.setGrid a).run = s.run := rfl
@[simp] theorem State.setGrid_cfg (s : State) (a : Grid) : (s.setGrid a).cfg = s.cfg := rfl
@[simp] theorem State.setGrid_keys (s : State) (a : Grid) : (s.setGrid a).keys = s.keys := rfl
@[simp] theorem State.setGrid_draws (s : State) (a : Grid) : (s.setGrid a).draws = s.draws := rfl
@[simp] theorem State.setGrid_inputs (s : State) (a : Grid) : (s.setGrid a).inputs = s.inputs := rfl

@[simp] theorem State.setRun_v (s : State) (a : RunState) : (s.setRun a).v = s.v := rfl
@[simp] theorem State.setRun_pc (s : State) (a : RunState) : (s.setRun a).pc = s.pc := rfl
@[simp] theorem State.setRun_i (s : State) (a : RunState) : (s.setRun a).i = s.i := rfl
@[simp] theorem State.setRun_dt (s : State) (a : RunState) : (s.setRun a).dt = s.dt := rfl
@[simp] theorem State.setRun_st (s : State) (a : RunState) : (s.setRun a).st = s.st := rfl
@[simp] theorem State.setRun_stack (s : State) (a : RunState) : (s.setRun a).stack = s.stack := rfl
@[simp] theorem State.setRun_heap (s : State) (a : RunState) : (s.setRun a).heap = s.heap := rfl
@[simp] theorem State.setRun_grid (s : State) (a : RunState) : (s.setRun a).grid = s.grid := rfl
@[simp] theorem State.setRun_run (s : State) (a : RunState) : (s.setRun a).run = a := rfl
@[simp] theorem State.setRun_cfg (s : State) (a : RunState) : (s.setRun a).cfg = s.cfg := rfl
@[simp] theorem State.setRun_keys (s : State) (a : RunState) : (s.setRun a).keys = s.keys := rfl
@[simp] theorem State.setRun_draws (s : State) (a : RunState) : (s.setRun a).draws = s.draws := rfl
@[simp] theorem State.setRun_inputs (s : State) (a : RunState) : (s.setRun a).inputs = s.inputs := rfl

@[simp] theorem State.setKeys_v (s : State) (a : BitVec 16) : (s.setKeys a).v = s.v := rfl
@[simp] theorem State.setKeys_pc (s : State) (a : BitVec 16) : (s.setKeys a).pc = s.pc := rfl
@[simp] theorem State.setKeys_i (s : State) (a : BitVec 16) : (s.setKeys a).i = s.i := rfl
@[simp] theorem State.setKeys_dt (s : State) (a : BitVec 16) : (s.setKeys a).dt = s.dt := rfl
@[simp] theorem State.setKeys_st (s : State) (a : BitVec 16) : (s.setKeys a).st = s.st := rfl
@[simp] theorem State.setKeys_stack (s : State) (a : BitVec 16) : (s.setKeys a).stack = s.stack := rfl
@[simp] theorem State.setKeys_heap (s : State) (a : BitVec 16) : (s.setKeys a).heap = s.heap := rfl
@[simp] theorem State.setKeys_grid (s : State) (a : BitVec 16) : (s.setKeys a).grid = s.grid := rfl
@[simp] theorem State.setKeys_run (s : State) (a : BitVec 16) : (s.setKeys a).run = s.run := rfl
@[simp] theorem State.setKeys_cfg (s : State) (a : BitVec 16) : (s.setKeys a).cfg = s.cfg := rfl
@[simp] theorem State.setKeys_keys (s : State) (a : BitVec 16) : (s.setKeys a).keys = a := rfl
@[simp] theorem State.setKeys_draws (s : State) (a : BitVec 16) : (s.setKeys a).draws = s.draws := rfl
@[simp] theorem State.setKeys_inputs (s : State) (a : BitVec 16) : (s.setKeys a).inputs = s.inputs := rfl

@[simp] theorem State.setDraws_v (s : State) (a : Nat) : (s.setDraws a).v = s.v := rfl
@[simp] theorem State.setDraws_pc (s : State) (a : Nat) : (s.setDraws a).pc = s.pc := rfl
@[simp] theorem State.setDraws_i (s : State) (a : Nat) : (s.setDraws a).i = s.i := rfl
@[simp] theorem State.setDraws_dt (s : State) (a : Nat) : (s.setDraws a).dt = s.dt := rfl
@[simp] theorem State.setDraws_st (s : State) (a : Nat) : (s.setDraws a).st = s.st := rfl
@[simp] theorem State.setDraws_stack (s : State) (a : Nat) : (s.setDraws a).stack = s.stack := rfl
@[simp] theorem State.setDraws_heap (s : State) (a : Nat) : (s.setDraws a).heap = s.heap := rfl
@[simp] theorem State.setDraws_grid (s : State) (a : Nat) : (s.setDraws a).grid = s.grid := rfl
@[simp] theorem State.setDraws_run (s : State) (a : Nat) : (s.setDraws a).run = s.run := rfl
@[simp] theorem State.setDraws_cfg (s : State) (a : Nat) : (s.setDraws a).cfg = s.cfg := rfl
@[simp] theorem State.setDraws_keys (s : State) (a : Nat) : (s.setDraws a).keys = s.keys := rfl
@[simp] theorem State.setDraws_draws (s : State) (a : Nat) : (s.setDraws a).draws = a := rfl
@[simp] theorem State.setDraws_inputs (s : State) (a : Nat) : (s.setDraws a).inputs = s.inputs := rfl

@[simp] theorem State.setInputs_v (s : State) (a : List Input) : (s.setInputs a).v = s.v := rfl
@[simp] theorem State.setInputs_pc (s : State) (a : List Input) : (s.setInputs a).pc = s.pc := rfl
@[simp] theorem State.setInputs_i (s : State) (a : List Input) : (s.setInputs a).i = s.i := rfl
@[simp] theorem State.setInputs_dt (s : State) (a : List Input) : (s.setInputs a).dt = s.dt := rfl
@[simp] theorem State.setInputs_st (s : State) (a : List Input) : (s.setInputs a).st = s.st := rfl
@[simp] theorem State.setInputs_stack (s : State) (a : List Input) : (s.setInputs a).stack = s.stack := rfl
@[simp] theorem State.setInputs_heap (s : State) (a : List Input) : (s.setInputs a).heap = s.heap := rfl
@[simp] theorem State.setInputs_grid (s : State) (a : List Input) : (s.setInputs a).grid = s.grid := rfl
@[simp] theorem State.setInputs_run (s : State) (a : List Input) : (s.setInputs a).run = s.run := rfl
@[simp] theorem State.setInputs_cfg (s : State) (a : List Input) : (s.setInputs a).cfg = s.cfg := rfl
@[simp] theorem State.setInputs_keys (s : State) (a : List Input) : (s.setInputs a).keys = s.keys := rfl
@[simp] theorem State.setInputs_draws (s : State) (a : List Input) : (s.setInputs a).draws = s.draws := rfl
@[simp] theorem State.setInputs_inputs (s : State) (a : List Input) : (s.setInputs a).inputs = a := rfl

end Sys2Proof.Machine
end

