-- ==== Sys2Proof/Laws/Memory.lean ====
section
/-! SUPPORT. The heap: a byte read after a write, and every operation keeps the canonical form. -/

namespace Sys2Proof.Machine

variable {cfg : Config} {m : Memory} {lo a b : Nat}

theorem Memory.get_erase_ne (c : Nat) (h : c ≠ a) : Memory.get cfg (m.erase a) c = Memory.get cfg m c := by
  induction m with
  | nil => rfl
  | cons e m ih =>
    simp only [Memory.erase, List.filter_cons] at ih ⊢
    by_cases he : e.1 = a
    · have : c ≠ e.1 := fun hc => h (hc.trans he)
      simp [he, Memory.get, h, ih]
    · simp [he, Memory.get, ih]

theorem Memory.get_erase_self (a : Nat) : Memory.get cfg (m.erase a) a = unlistedByte cfg a := by
  induction m with
  | nil => rfl
  | cons e m ih =>
    simp only [Memory.erase, List.filter_cons] at ih ⊢
    by_cases he : e.1 = a
    · simp [he, ih]
    · simp [he, Memory.get, ih, Ne.symm he]

theorem Memory.not_mem_erase {e : Host.Cell} (h : e ∈ m.erase a) : e.1 ≠ a := by
  simpa using (List.mem_filter.mp h).2

theorem Memory.get_insert (hm : ∀ e ∈ m, e.1 ≠ a) (x : Byte) (c : Nat) :
    Memory.get cfg (m.insert a x) c = if c = a then x else Memory.get cfg m c := by
  induction m with
  | nil => rfl
  | cons e m ih =>
    have he : e.1 ≠ a := hm e (by simp)
    have ih := ih fun e' h' => hm e' (by simp [h'])
    simp only [Memory.insert]
    split
    · rfl
    · by_cases hc : c = e.1
      · simp [Memory.get, hc, he]
      · simp [Memory.get, hc, ih]

/-- What a write does to every read: the written address gives the byte, every other address is left alone. -/
theorem Memory.get_put (a : Nat) (x : Byte) (c : Nat) :
    Memory.get cfg (Memory.put cfg m a x) c = if c = a then x else Memory.get cfg m c := by
  unfold Memory.put
  by_cases hx : x = unlistedByte cfg a
  · by_cases hc : c = a
    · simp [hx, hc, Memory.get_erase_self]
    · simp [hx, hc, Memory.get_erase_ne]
  · rw [if_neg hx, Memory.get_insert fun e h => Memory.not_mem_erase h]
    by_cases hc : c = a
    · simp [hc]
    · simp [hc, Memory.get_erase_ne]

theorem Memory.wfFrom_weaken (h : Memory.wfFrom cfg b m = true) (hlo : lo ≤ b) : Memory.wfFrom cfg lo m = true := by
  cases m with
  | nil => rfl
  | cons e m => simp_all [Memory.wfFrom]; omega

theorem Memory.wfFrom_erase (a : Nat) (h : Memory.wfFrom cfg lo m = true) :
    Memory.wfFrom cfg lo (m.erase a) = true := by
  induction m generalizing lo with
  | nil => rfl
  | cons e m ih =>
    simp only [Memory.wfFrom, Bool.and_eq_true, decide_eq_true_eq] at h
    have ih := ih h.2
    simp only [Memory.erase, List.filter_cons] at ih ⊢
    split
    · simp [Memory.wfFrom, h.1, ih]
    · exact Memory.wfFrom_weaken ih (by omega)

theorem Memory.wfFrom_insert {x : Byte} (h : Memory.wfFrom cfg lo m = true) (hm : ∀ e ∈ m, e.1 ≠ a)
    (hlo : lo ≤ a) (ha : a < 4096) (hx : x ≠ unlistedByte cfg a) :
    Memory.wfFrom cfg lo (m.insert a x) = true := by
  induction m generalizing lo with
  | nil => simp [Memory.insert, Memory.wfFrom, hlo, ha, hx]
  | cons e m ih =>
    have he : e.1 ≠ a := hm e (by simp)
    simp only [Memory.wfFrom, Bool.and_eq_true, decide_eq_true_eq, bne_iff_ne] at h
    simp only [Memory.insert]
    split
    · next hlt =>
      simp only [Memory.wfFrom, Bool.and_eq_true, decide_eq_true_eq, bne_iff_ne]
      exact ⟨⟨⟨hlo, ha⟩, hx⟩, ⟨⟨by omega, h.1.1.2⟩, h.1.2⟩, h.2⟩
    · next hge =>
      simp only [Memory.wfFrom, Bool.and_eq_true, decide_eq_true_eq, bne_iff_ne]
      exact ⟨h.1, ih h.2 (fun e' h' => hm e' (by simp [h'])) (by omega)⟩

/-- Writing keeps the canonical form. -/
theorem Memory.wf_put (a : Nat) (x : Byte) (h : m.wf cfg = true) (ha : a < 4096) :
    (Memory.put cfg m a x).wf cfg = true := by
  unfold Memory.put Memory.wf
  by_cases hx : x = unlistedByte cfg a
  · simpa [hx] using Memory.wfFrom_erase a h
  · simpa [hx] using Memory.wfFrom_insert (Memory.wfFrom_erase a h) (fun e he => Memory.not_mem_erase he)
      (Nat.zero_le a) ha hx

/-- The reset heap, under any configuration, is in canonical form. -/
theorem Memory.wf_reset (cfg : Config) : (State.resetWith cfg).heap.wf cfg = true := rfl

/-! ## Heap accesses of a state -/

variable (s : State)

/-- What a byte store does to every byte read. -/
theorem State.readByte_writeByte (a : Nat) (x : Byte) (c : Nat) :
    (s.writeByte a x).readByte c = if c % 4096 = a % 4096 then x else s.readByte c := by
  simp [State.writeByte, State.readByte, Memory.get_put]

theorem State.heap_wf_writeByte (a : Nat) (x : Byte) (h : s.heap.wf s.cfg = true) :
    (s.writeByte a x).heap.wf s.cfg = true :=
  Memory.wf_put _ _ h (Nat.mod_lt _ (by decide))

/-- A block store writes the heap and nothing else. -/
theorem State.storeBlock_eq_setHeap (a : Nat) (bs : List Byte) :
    s.storeBlock a bs = s.setHeap (s.storeBlock a bs).heap := by
  induction bs generalizing s a with
  | nil => rfl
  | cons b bs ih => rw [State.storeBlock, ih]; rfl

@[simp] theorem State.storeBlock_cfg (a : Nat) (bs : List Byte) : (s.storeBlock a bs).cfg = s.cfg := by
  rw [State.storeBlock_eq_setHeap]; rfl

/-- A block store keeps the canonical form. -/
theorem State.heap_wf_storeBlock (a : Nat) (bs : List Byte) (h : s.heap.wf s.cfg = true) :
    (s.storeBlock a bs).heap.wf s.cfg = true := by
  induction bs generalizing s a with
  | nil => exact h
  | cons b bs ih => exact ih (s.writeByte a b) (a + 1) (s.heap_wf_writeByte a b h)

/-- A byte no store of the block reaches reads as before. -/
theorem State.readByte_storeBlock_outside (a : Nat) (bs : List Byte) (c : Nat)
    (h : ∀ k < bs.length, c % 4096 ≠ (a + k) % 4096) : (s.storeBlock a bs).readByte c = s.readByte c := by
  induction bs generalizing s a with
  | nil => rfl
  | cons b bs ih =>
    have h0 := h 0 (by simp)
    rw [State.storeBlock, ih]
    · rw [State.readByte_writeByte, if_neg (by simpa using h0)]
    · intro k hk
      have := h (k + 1) (by simpa using hk)
      rwa [show a + 1 + k = a + (k + 1) by omega]

/-- A byte of the block reads as stored, where the block does not overlap itself. -/
theorem State.readByte_storeBlock_inside (a : Nat) (bs : List Byte) (k : Nat) (hk : k < bs.length)
    (hlen : bs.length ≤ 4096) : (s.storeBlock a bs).readByte (a + k) = bs[k] := by
  induction bs generalizing s a k with
  | nil => simp at hk
  | cons b bs ih =>
    simp only [List.length_cons] at hk hlen
    rw [State.storeBlock]
    cases k with
    | zero =>
      rw [State.readByte_storeBlock_outside _ _ _ _ (by intro k hk; omega), State.readByte_writeByte]
      simp
    | succ k =>
      have := ih (s.writeByte a b) (a + 1) k (by omega) (by omega)
      rw [show a + (k + 1) = a + 1 + k by omega, this]
      rfl

/-- A block read lists the bytes at a, a+1, ... -/
theorem State.readBlock_eq_map (a n : Nat) : s.readBlock a n = (List.range n).map fun k => s.readByte (a + k) := by
  induction n generalizing a with
  | zero => rfl
  | succ n ih =>
    rw [State.readBlock, ih, List.range_succ_eq_map]
    simp only [List.map_cons, List.map_map, Nat.add_zero, List.cons.injEq, true_and]
    apply List.map_congr_left
    intro k _
    simp only [Function.comp, Nat.succ_eq_add_one]
    rw [show a + 1 + k = a + (k + 1) by omega]

end Sys2Proof.Machine
end

