-- ==== Sys2Proof/Laws/Ops.lean ====
section
/-! SUPPORT. One lemma per shared operation: what it does to a later read, and what it leaves alone. -/

namespace Sys2Proof.Machine

variable (s : State)

/-! ## Registers -/

/-- What a register write does to every register read. -/
theorem State.readV_writeV (x : Nibble) (b : Byte) (j : Nibble) :
    (s.writeV x b).readV j = if j = x then b else s.readV j := by
  simp [State.readV, State.writeV, Vector.getElem_set, BitVec.toNat_inj, eq_comm]

@[simp] theorem State.readV_writeV_self (x : Nibble) (b : Byte) : (s.writeV x b).readV x = b := by
  simp [State.readV_writeV]

/-- A register write changes the registers and nothing else. -/
theorem State.writeV_eq_setV (x : Nibble) (b : Byte) : s.writeV x b = s.setV (s.v.set x.toNat b x.isLt) := rfl

@[simp] theorem State.readV_setPc (a : Word) (j : Nibble) : (s.setPc a).readV j = s.readV j := rfl
@[simp] theorem State.readV_setI (a : Word) (j : Nibble) : (s.setI a).readV j = s.readV j := rfl
@[simp] theorem State.readV_setDt (a : Byte) (j : Nibble) : (s.setDt a).readV j = s.readV j := rfl
@[simp] theorem State.readV_setSt (a : Byte) (j : Nibble) : (s.setSt a).readV j = s.readV j := rfl
@[simp] theorem State.readV_setStack (a : List Word) (j : Nibble) : (s.setStack a).readV j = s.readV j := rfl
@[simp] theorem State.readV_setHeap (a : Memory) (j : Nibble) : (s.setHeap a).readV j = s.readV j := rfl
@[simp] theorem State.readV_setGrid (a : Grid) (j : Nibble) : (s.setGrid a).readV j = s.readV j := rfl
@[simp] theorem State.readV_setRun (a : RunState) (j : Nibble) : (s.setRun a).readV j = s.readV j := rfl
@[simp] theorem State.readV_setKeys (a : BitVec 16) (j : Nibble) : (s.setKeys a).readV j = s.readV j := rfl
@[simp] theorem State.readV_setDraws (a : Nat) (j : Nibble) : (s.setDraws a).readV j = s.readV j := rfl
@[simp] theorem State.readV_setInputs (a : List Input) (j : Nibble) : (s.setInputs a).readV j = s.readV j := rfl

@[simp] theorem State.readByte_setV (a : Vector Byte 16) (c : Nat) : (s.setV a).readByte c = s.readByte c := rfl
@[simp] theorem State.readByte_setPc (a : Word) (c : Nat) : (s.setPc a).readByte c = s.readByte c := rfl
@[simp] theorem State.readByte_setI (a : Word) (c : Nat) : (s.setI a).readByte c = s.readByte c := rfl
@[simp] theorem State.readByte_setDt (a : Byte) (c : Nat) : (s.setDt a).readByte c = s.readByte c := rfl
@[simp] theorem State.readByte_setSt (a : Byte) (c : Nat) : (s.setSt a).readByte c = s.readByte c := rfl
@[simp] theorem State.readByte_setStack (a : List Word) (c : Nat) : (s.setStack a).readByte c = s.readByte c := rfl
@[simp] theorem State.readByte_setGrid (a : Grid) (c : Nat) : (s.setGrid a).readByte c = s.readByte c := rfl
@[simp] theorem State.readByte_setRun (a : RunState) (c : Nat) : (s.setRun a).readByte c = s.readByte c := rfl
@[simp] theorem State.readByte_setKeys (a : BitVec 16) (c : Nat) : (s.setKeys a).readByte c = s.readByte c := rfl
@[simp] theorem State.readByte_setDraws (a : Nat) (c : Nat) : (s.setDraws a).readByte c = s.readByte c := rfl
@[simp] theorem State.readByte_setInputs (a : List Input) (c : Nat) : (s.setInputs a).readByte c = s.readByte c := rfl
@[simp] theorem State.readByte_writeV (x : Nibble) (b : Byte) (c : Nat) : (s.writeV x b).readByte c = s.readByte c := rfl

@[simp] theorem State.writeV_pc (x : Nibble) (b : Byte) : (s.writeV x b).pc = s.pc := rfl
@[simp] theorem State.writeV_i (x : Nibble) (b : Byte) : (s.writeV x b).i = s.i := rfl
@[simp] theorem State.writeV_dt (x : Nibble) (b : Byte) : (s.writeV x b).dt = s.dt := rfl
@[simp] theorem State.writeV_st (x : Nibble) (b : Byte) : (s.writeV x b).st = s.st := rfl
@[simp] theorem State.writeV_stack (x : Nibble) (b : Byte) : (s.writeV x b).stack = s.stack := rfl
@[simp] theorem State.writeV_heap (x : Nibble) (b : Byte) : (s.writeV x b).heap = s.heap := rfl
@[simp] theorem State.writeV_grid (x : Nibble) (b : Byte) : (s.writeV x b).grid = s.grid := rfl
@[simp] theorem State.writeV_run (x : Nibble) (b : Byte) : (s.writeV x b).run = s.run := rfl
@[simp] theorem State.writeV_cfg (x : Nibble) (b : Byte) : (s.writeV x b).cfg = s.cfg := rfl
@[simp] theorem State.writeV_keys (x : Nibble) (b : Byte) : (s.writeV x b).keys = s.keys := rfl
@[simp] theorem State.writeV_draws (x : Nibble) (b : Byte) : (s.writeV x b).draws = s.draws := rfl
@[simp] theorem State.writeV_inputs (x : Nibble) (b : Byte) : (s.writeV x b).inputs = s.inputs := rfl

/-- The loop of R195 changes the registers and nothing else. -/
theorem State.loadRegs_eq_setV (first : Nat) (bs : List Byte) :
    s.loadRegs first bs = s.setV (s.loadRegs first bs).v := by
  induction bs generalizing s first with
  | nil => rfl
  | cons b bs ih => rw [State.loadRegs, ih]; rfl

/-- What the loop of R195 leaves in each register. -/
theorem State.readV_loadRegs (first : Nat) (bs : List Byte) (h : first + bs.length ≤ 16) (j : Nibble) :
    (s.loadRegs first bs).readV j =
      if first ≤ j.toNat then bs.getD (j.toNat - first) (s.readV j) else s.readV j := by
  induction bs generalizing s first with
  | nil => simp [State.loadRegs]
  | cons b bs ih =>
    simp only [List.length_cons] at h
    rw [State.loadRegs, ih _ _ (by omega), State.readV_writeV]
    have hj : j = BitVec.ofNat 4 first ↔ j.toNat = first := by
      rw [← BitVec.toNat_inj, BitVec.toNat_ofNat, Nat.mod_eq_of_lt (by omega)]
    rcases Nat.lt_trichotomy j.toNat first with hlt | heq | hgt
    · simp [show ¬ first ≤ j.toNat by omega, show ¬ first + 1 ≤ j.toNat by omega, hj, show j.toNat ≠ first by omega]
    · simp [heq, hj]
    · have : j.toNat - first = j.toNat - (first + 1) + 1 := by omega
      simp [show first ≤ j.toNat by omega, show first + 1 ≤ j.toNat by omega, hj, show j.toNat ≠ first by omega, this]

/-- V0..Vx listed in order. -/
theorem State.firstRegs_getElem? (x j : Nibble) (h : j ≤ x) : (s.firstRegs x)[j.toNat]? = some (s.readV j) := by
  have h' : j.toNat < x.toNat + 1 := by have := BitVec.le_def.mp h; omega
  have := j.isLt
  simp only [State.firstRegs, List.getElem?_take_of_lt h', State.readV]
  rw [List.getElem?_eq_getElem (by simp; omega)]
  simp

@[simp] theorem State.firstRegs_length (x : Nibble) : (s.firstRegs x).length = x.toNat + 1 := by
  have := x.isLt
  simp only [State.firstRegs, List.length_take, Vector.length_toList]
  omega

/-! ## Result and flag -/

/-- Every register after a result and a flag: with x = 0xF the flag wins (R142). -/
theorem State.readV_writeResultAndFlag (x : Nibble) (b : Byte) (c : Bool) (j : Nibble) :
    (s.writeResultAndFlag x b c).readV j = if j = vf then flagByte c else if j = x then b else s.readV j := by
  simp [State.writeResultAndFlag, State.writeFlag, State.readV_writeV]

theorem State.writeResultAndFlag_eq_setV (x : Nibble) (b : Byte) (c : Bool) :
    s.writeResultAndFlag x b c = s.setV (s.writeResultAndFlag x b c).v := rfl

/-! ## Addresses and pc -/

/-- A wrapped address is exact mod 4096. -/
@[simp] theorem wrapAddr_toNat (a : Nat) : (wrapAddr a).toNat = a % 4096 := by
  simp only [wrapAddr, BitVec.toNat_ofNat]
  omega

theorem wrapAddr_lt (a : Nat) : (wrapAddr a).toNat < 4096 := by
  rw [wrapAddr_toNat]; exact Nat.mod_lt _ (by decide)

/-- A skip moves pc and nothing else. -/
theorem State.skipIf_eq_setPc (c : Bool) :
    s.skipIf c = s.setPc (if c then wrapAddr (s.pc.toNat + 2) else s.pc) := by
  cases c <;> rfl

/-- The pc advance moves pc and nothing else. -/
theorem State.advancePc_eq_setPc : s.advancePc = s.setPc (wrapAddr (s.pc.toNat + 2)) := rfl

/-! ## Counters, events and timers: each writes its own fields and nothing else -/

theorem State.countDraw_eq_setDraws : s.countDraw = s.setDraws (s.draws + 1) := rfl

theorem State.dropInput_eq_setInputs : s.dropInput = s.setInputs s.inputs.tail := rfl

/-- A tick floors at 0. -/
theorem timerDown_toNat (t : Byte) : (timerDown t).toNat = t.toNat - 1 := by
  unfold timerDown
  split <;> bv_omega

theorem State.tick_eq_setters : s.tick = (s.setDt (timerDown s.dt)).setSt (timerDown s.st) := rfl

/-! ## Stack -/

/-- Popping what was pushed. -/
theorem State.pop_push (w : Word) : (s.push w).pop = some (w, s) := by
  simp [State.pop, State.push, State.setStack]

/-- Everything `pop` can do. -/
theorem State.pop_cases :
    (s.stack = [] ∧ s.pop = none) ∨
      ∃ rest w, s.stack = rest ++ [w] ∧ s.pop = some (w, s.setStack rest) := by
  rcases List.eq_nil_or_concat s.stack with h | ⟨rest, w, h⟩
  · exact .inl ⟨h, by simp [State.pop, h]⟩
  · have h' : s.stack = rest ++ [w] := by simpa using h
    exact .inr ⟨rest, w, h', by simp [State.pop, h']⟩

/-- A full stack is one whose depth is finite and reached. -/
theorem State.stackFull_iff : s.stackFull = true ↔ ∃ d, s.cfg.stackDepth = some d ∧ d ≤ s.stack.length := by
  unfold State.stackFull
  split <;> simp_all

/-! ## Keys -/

theorem mem_pressedKeys (keys : BitVec 16) (k : Nat) : k ∈ pressedKeys keys ↔ k < 16 ∧ keys.getLsbD k = true := by
  simp [pressedKeys]

/-- Everything `PressedKey()` can answer: none exactly when no key is pressed, else the code of a pressed key. -/
theorem State.pressedKey_cases :
    (s.pressedKey = none ∧ ∀ k < 16, s.keys.getLsbD k = false) ∨
      ∃ k < 16, s.keys.getLsbD k = true ∧ s.pressedKey = some (BitVec.ofNat 8 k) := by
  unfold State.pressedKey
  have hm := mem_pressedKeys s.keys
  generalize pressedKeys s.keys = ks at hm
  match ks with
  | [] =>
    refine .inl ⟨rfl, fun k hk => ?_⟩
    by_contra hc
    simpa using (hm k).mpr ⟨hk, by simpa using hc⟩
  | [k] =>
    have := (hm k).mp (by simp)
    exact .inr ⟨k, this.1, this.2, rfl⟩
  | k :: k' :: ks =>
    have hlt : Config.freeKeyIndex s.draws % (k :: k' :: ks).length < (k :: k' :: ks).length :=
      Nat.mod_lt _ (by simp)
    have hin := (hm _).mp (List.getElem_mem hlt)
    exact .inr ⟨_, hin.1, hin.2, by
      simp only [List.getElem?_eq_getElem hlt, Option.map_some]⟩

end Sys2Proof.Machine
end

