-- ==== Sys2Proof/Laws/PerInstr.lean ====
section
/-! SUPPORT. A per-instruction family: the encoded word of every well-formed instruction lies in the opcode family
that the instruction's pattern names (spec/30 R83, R85). -/

namespace Sys2Proof.Laws.EncodeFamily

/-- The families an instruction's words lie in: the leading digit of its pattern (R83), and for INVALID the families
of R92. -/
def families : Instr → List Nat
  | .cls => [0x0]
  | .ret => [0x0]
  | .sys _ => [0x0]
  | .jp _ => [0x1]
  | .call _ => [0x2]
  | .seImm _ _ => [0x3]
  | .sneImm _ _ => [0x4]
  | .seReg _ _ => [0x5]
  | .ldImm _ _ => [0x6]
  | .addImm _ _ => [0x7]
  | .ldReg _ _ => [0x8]
  | .orReg _ _ => [0x8]
  | .andReg _ _ => [0x8]
  | .xorReg _ _ => [0x8]
  | .addReg _ _ => [0x8]
  | .sub _ _ => [0x8]
  | .shr _ _ => [0x8]
  | .subn _ _ => [0x8]
  | .shl _ _ => [0x8]
  | .sneReg _ _ => [0x9]
  | .ldI _ => [0xA]
  | .jpOff _ => [0xB]
  | .rnd _ _ => [0xC]
  | .drw _ _ _ => [0xD]
  | .skp _ => [0xE]
  | .sknp _ => [0xE]
  | .ldVxDt _ => [0xF]
  | .ldVxK _ => [0xF]
  | .ldDtVx _ => [0xF]
  | .ldStVx _ => [0xF]
  | .addI _ => [0xF]
  | .ldF _ => [0xF]
  | .ldB _ => [0xF]
  | .ldMemVx _ => [0xF]
  | .ldVxMem _ => [0xF]
  | .invalid _ => [0x5, 0x8, 0x9, 0xE, 0xF]

/-- The word of a well-formed instruction lies in one of its families. -/
def Statement (i : Instr) : Prop := i.WellFormed → (fieldF (encode i)).toNat ∈ families i

theorem cls : Statement .cls := fun _ => by decide

theorem ret : Statement .ret := fun _ => by decide

theorem sys (nnn : Addr) : Statement (.sys nnn) := fun _ => by simp [encode, families]

theorem jp (nnn : Addr) : Statement (.jp nnn) := fun _ => by simp [encode, families]

theorem call (nnn : Addr) : Statement (.call nnn) := fun _ => by simp [encode, families]

theorem seImm (x : Nibble) (kk : Byte) : Statement (.seImm x kk) := fun _ => by simp [encode, families]

theorem sneImm (x : Nibble) (kk : Byte) : Statement (.sneImm x kk) := fun _ => by simp [encode, families]

theorem seReg (x : Nibble) (y : Nibble) : Statement (.seReg x y) := fun _ => by simp [encode, families]

theorem ldImm (x : Nibble) (kk : Byte) : Statement (.ldImm x kk) := fun _ => by simp [encode, families]

theorem addImm (x : Nibble) (kk : Byte) : Statement (.addImm x kk) := fun _ => by simp [encode, families]

theorem ldReg (x : Nibble) (y : Nibble) : Statement (.ldReg x y) := fun _ => by simp [encode, families]

theorem orReg (x : Nibble) (y : Nibble) : Statement (.orReg x y) := fun _ => by simp [encode, families]

theorem andReg (x : Nibble) (y : Nibble) : Statement (.andReg x y) := fun _ => by simp [encode, families]

theorem xorReg (x : Nibble) (y : Nibble) : Statement (.xorReg x y) := fun _ => by simp [encode, families]

theorem addReg (x : Nibble) (y : Nibble) : Statement (.addReg x y) := fun _ => by simp [encode, families]

theorem sub (x : Nibble) (y : Nibble) : Statement (.sub x y) := fun _ => by simp [encode, families]

theorem shr (x : Nibble) (y : Nibble) : Statement (.shr x y) := fun _ => by simp [encode, families]

theorem subn (x : Nibble) (y : Nibble) : Statement (.subn x y) := fun _ => by simp [encode, families]

theorem shl (x : Nibble) (y : Nibble) : Statement (.shl x y) := fun _ => by simp [encode, families]

theorem sneReg (x : Nibble) (y : Nibble) : Statement (.sneReg x y) := fun _ => by simp [encode, families]

theorem ldI (nnn : Addr) : Statement (.ldI nnn) := fun _ => by simp [encode, families]

theorem jpOff (nnn : Addr) : Statement (.jpOff nnn) := fun _ => by simp [encode, families]

theorem rnd (x : Nibble) (kk : Byte) : Statement (.rnd x kk) := fun _ => by simp [encode, families]

theorem drw (x : Nibble) (y : Nibble) (n : Nibble) : Statement (.drw x y n) := fun _ => by simp [encode, families]

theorem skp (x : Nibble) : Statement (.skp x) := fun _ => by simp [encode, families]

theorem sknp (x : Nibble) : Statement (.sknp x) := fun _ => by simp [encode, families]

theorem ldVxDt (x : Nibble) : Statement (.ldVxDt x) := fun _ => by simp [encode, families]

theorem ldVxK (x : Nibble) : Statement (.ldVxK x) := fun _ => by simp [encode, families]

theorem ldDtVx (x : Nibble) : Statement (.ldDtVx x) := fun _ => by simp [encode, families]

theorem ldStVx (x : Nibble) : Statement (.ldStVx x) := fun _ => by simp [encode, families]

theorem addI (x : Nibble) : Statement (.addI x) := fun _ => by simp [encode, families]

theorem ldF (x : Nibble) : Statement (.ldF x) := fun _ => by simp [encode, families]

theorem ldB (x : Nibble) : Statement (.ldB x) := fun _ => by simp [encode, families]

theorem ldMemVx (x : Nibble) : Statement (.ldMemVx x) := fun _ => by simp [encode, families]

theorem ldVxMem (x : Nibble) : Statement (.ldVxMem x) := fun _ => by simp [encode, families]

theorem invalid (w : Word) : Statement (.invalid w) := fun h => by
  simp only [Instr.WellFormed, Instr.wellFormed, invalidWord] at h
  simp only [encode, families, fieldF]
  split at h <;> simp_all

end Sys2Proof.Laws.EncodeFamily
end

