-- ==== Sys2Proof/Laws/Raster.lean ====
section
/-! SUPPORT. The rasterizer's parts: one pixel, one set sprite bit, one row byte, one row index. -/

namespace Sys2Proof.Machine

/-- What a pixel write does to every pixel. -/
theorem Grid.pixel_setPixel (g : Grid) (c : Fin 64) (r : Fin 32) (b : Bool) (c' : Fin 64) (r' : Fin 32) :
    (g.setPixel c r b).pixel c' r' = if c' = c ∧ r' = r then b else g.pixel c' r' := by
  simp only [Grid.pixel, Grid.setPixel, Vector.get_eq_getElem, Vector.getElem_set]
  by_cases hr : r.val = r'.val
  · by_cases hc : c.val = c'.val
    · simp [Fin.ext_iff, hr, hc]
    · simp [Fin.ext_iff, hr, hc, Ne.symm hc]
  · simp [Fin.ext_iff, hr, Ne.symm hr]

@[simp] theorem Grid.pixel_clear (c : Fin 64) (r : Fin 32) : Grid.clear.pixel c r = false := by
  simp [Grid.pixel, Grid.clear, Vector.get_eq_getElem]

/-- A grid is its pixels. -/
theorem Grid.ext_pixel {g g' : Grid} (h : ∀ c r, g.pixel c r = g'.pixel c r) : g = g' := by
  apply Vector.ext
  intro r hr
  apply Vector.ext
  intro c hc
  simpa [Grid.pixel, Vector.get_eq_getElem] using h ⟨c, hc⟩ ⟨r, hr⟩

/-- A set sprite bit toggles its pixel and no other (R223). -/
theorem Canvas.pixel_plot (k : Canvas) (c : Fin 64) (r : Fin 32) (c' : Fin 64) (r' : Fin 32) :
    (k.plot c r).grid.pixel c' r' = (k.grid.pixel c' r' ^^ decide (c' = c ∧ r' = r)) := by
  by_cases h : c' = c ∧ r' = r
  · obtain ⟨rfl, rfl⟩ := h
    unfold Canvas.plot
    split <;> simp_all [Grid.pixel_setPixel]
  · unfold Canvas.plot
    split <;> simp only [Grid.pixel_setPixel, if_neg h, decide_eq_false h, Bool.xor_false]

/-- A set sprite bit collides exactly with a set pixel (R223). -/
theorem Canvas.hit_plot (k : Canvas) (c : Fin 64) (r : Fin 32) :
    (k.plot c r).hit = (k.hit || k.grid.pixel c r) := by
  unfold Canvas.plot
  split <;> simp_all

/-- The sprite column that a screen column stands at. -/
theorem spriteColumn_eq_iff {cx c : Nat} (hc : c < 8) (c' : Fin 64) :
    c' = spriteColumn cx c ↔ (c'.val + 64 - cx % 64) % 64 = c := by
  have h' := c'.isLt
  have h0 := Nat.mod_lt cx (show 0 < 64 by decide)
  have h1 : (cx + c) % 64 = (cx % 64 + c) % 64 := by omega
  simp only [spriteColumn, Fin.ext_iff, Fin.ofNat, h1]
  generalize cx % 64 = m at *
  omega

/-- What drawing the columns c..c+left-1 of a row byte does to every pixel: XOR with the byte's bits. -/
theorem Canvas.pixel_drawColumns (k : Canvas) (cx : Nat) (r : Fin 32) (b : Byte) (c left : Nat) (h : c + left ≤ 8)
    (c' : Fin 64) (r' : Fin 32) :
    (k.drawColumns cx r b c left).grid.pixel c' r' =
      (k.grid.pixel c' r' ^^
        (decide (r' = r) && (decide (c ≤ (c'.val + 64 - cx % 64) % 64) &&
          decide ((c'.val + 64 - cx % 64) % 64 < c + left)) && b.getLsbD (7 - (c'.val + 64 - cx % 64) % 64))) := by
  induction left generalizing k c with
  | zero =>
    simp only [Canvas.drawColumns, Nat.add_zero]
    generalize (c'.val + 64 - cx % 64) % 64 = d
    have : (decide (c ≤ d) && decide (d < c)) = false := by simp
    simp [this]
  | succ left ih =>
    rw [Canvas.drawColumns, ih _ (c + 1) (by omega)]
    have hcol := spriteColumn_eq_iff (cx := cx) (show c < 8 by omega) c'
    split
    · rw [Canvas.pixel_plot]
      simp only [hcol]
      generalize (c'.val + 64 - cx % 64) % 64 = d
      rcases Nat.lt_trichotomy d c with hd | hd | hd
      · simp [show ¬ c + 1 ≤ d by omega, show ¬ c ≤ d by omega, show d ≠ c by omega]
      · subst hd
        by_cases hr : r' = r <;> simp_all
      · simp [show c + 1 ≤ d by omega, show c ≤ d by omega, show d ≠ c by omega,
          show c + 1 + left = c + (left + 1) by omega]
    · next hb =>
      generalize (c'.val + 64 - cx % 64) % 64 = d
      rcases Nat.lt_trichotomy d c with hd | hd | hd
      · simp [show ¬ c + 1 ≤ d by omega, show ¬ c ≤ d by omega]
      · subst hd
        simp [hb]
      · simp [show c + 1 ≤ d by omega, show c ≤ d by omega, show c + 1 + left = c + (left + 1) by omega]

/-- Whether drawing those columns collides: a set bit stands on a set pixel. -/
theorem Canvas.hit_drawColumns (k : Canvas) (cx : Nat) (r : Fin 32) (b : Byte) (c left : Nat) (h : c + left ≤ 8) :
    (k.drawColumns cx r b c left).hit = true ↔
      k.hit = true ∨ ∃ j, c ≤ j ∧ j < c + left ∧ b.getLsbD (7 - j) = true ∧
        k.grid.pixel (spriteColumn cx j) r = true := by
  induction left generalizing k c with
  | zero =>
    simp only [Canvas.drawColumns, Nat.add_zero]
    exact ⟨.inl, fun h' => h'.elim id fun ⟨j, h1, h2, _⟩ => absurd h2 (by omega)⟩
  | succ left ih =>
    rw [Canvas.drawColumns, ih _ (c + 1) (by omega)]
    have hne : ∀ j, c + 1 ≤ j → j < c + 1 + left → spriteColumn cx j ≠ spriteColumn cx c := by
      intro j h1 h2 heq
      have hj := (spriteColumn_eq_iff (cx := cx) (show j < 8 by omega) _).mp rfl
      rw [heq] at hj
      have hc := (spriteColumn_eq_iff (cx := cx) (show c < 8 by omega) _).mp rfl
      omega
    split
    · next hb =>
      rw [Canvas.hit_plot]
      constructor
      · rintro (h1 | ⟨j, h1, h2, h3, h4⟩)
        · rcases Bool.or_eq_true _ _ ▸ h1 with h1 | h1
          · exact .inl h1
          · exact .inr ⟨c, by omega, by omega, hb, h1⟩
        · rw [Canvas.pixel_plot] at h4
          exact .inr ⟨j, by omega, by omega, h3, by simpa [hne j h1 h2] using h4⟩
      · rintro (h1 | ⟨j, h1, h2, h3, h4⟩)
        · simp [h1]
        · by_cases hj : j = c
          · subst hj; simp [h4]
          · refine .inr ⟨j, by omega, by omega, h3, ?_⟩
            rw [Canvas.pixel_plot]
            simpa [hne j (by omega) (by omega)] using h4
    · next hb =>
      constructor
      · rintro (h1 | ⟨j, h1, h2, h3⟩)
        · exact .inl h1
        · exact .inr ⟨j, by omega, by omega, h3⟩
      · rintro (h1 | ⟨j, h1, h2, h3⟩)
        · exact .inl h1
        · by_cases hj : j = c
          · subst hj; exact absurd h3.1 hb
          · exact .inr ⟨j, by omega, by omega, h3⟩

/-- Where a sprite row is drawn (R226). -/
theorem spriteRow_eq_some_iff (wrapY : Bool) (py : Nat) (r : Fin 32) :
    spriteRow wrapY py = some r ↔ r.val = py % 32 ∧ (wrapY = true ∨ py < 32) := by
  unfold spriteRow
  have := r.isLt
  split
  · next h => simp only [Option.some.injEq, Fin.ext_iff]; omega
  · next h =>
    cases wrapY
    · simp; omega
    · simp only [if_true, Option.some.injEq, Fin.ext_iff, Fin.ofNat, true_or, and_true]; omega

end Sys2Proof.Machine
end

