-- ==== Sys2Proof/Laws/Step.lean ====
section
/-! SUPPORT. Everything an event and a step can do, once, and the run an endless sequence of events drives. -/

namespace Sys2Proof.Machine

/-- If an event answers a next state, the run had not ended, and it was a step request, a tick or a key change. -/
theorem stepEvent_next_cases {e : Input} {s t : State} (h : stepEvent e s = .next t) :
    s.run = .running ∧
      ((e = .step ∧ exec (decode s.fetchWord) s.advancePc = .next t) ∨ (e = .tick ∧ t = s.tick) ∨
       ∃ k, e = .keys k ∧ t = s.setKeys k) := by
  unfold stepEvent at h
  split at h
  · cases h
  · next hrun =>
    refine ⟨hrun, ?_⟩
    split at h
    · exact .inl ⟨rfl, h⟩
    · exact .inr (.inl ⟨rfl, by cases h; rfl⟩)
    · next k => exact .inr (.inr ⟨k, rfl, by cases h; rfl⟩)

/-- Taking an event off the list leaves the fetch alone. -/
@[simp] theorem State.fetchWord_dropInput (s : State) : s.dropInput.fetchWord = s.fetchWord := rfl

@[simp] theorem State.run_dropInput (s : State) : s.dropInput.run = s.run := rfl

/-- If a step answers a next state, the run had not ended and the event was a step request, a tick or a key change. -/
theorem step_next_cases {s t : State} (h : step s = .next t) :
    s.run = .running ∧
      ((s.nextInput = .step ∧ exec (decode s.fetchWord) s.dropInput.advancePc = .next t) ∨
       (s.nextInput = .tick ∧ t = s.dropInput.tick) ∨
       ∃ k, s.nextInput = .keys k ∧ t = s.dropInput.setKeys k) :=
  stepEvent_next_cases h

/-! ## Driven runs -/

@[simp] theorem State.drivenBy_zero (env : Nat → Input) (s : State) : s.drivenBy env 0 = s := rfl

/-- The next state of a driven run is the event's, or the state itself where the event answers none. -/
theorem State.drivenBy_succ_cases (env : Nat → Input) (s : State) (n : Nat) :
    stepEvent (env n) (s.drivenBy env n) = .next (s.drivenBy env (n + 1)) ∨
      s.drivenBy env (n + 1) = s.drivenBy env n := by
  simp only [State.drivenBy]
  cases stepEvent (env n) (s.drivenBy env n)
  · exact .inl rfl
  · exact .inr rfl
  · exact .inr rfl

/-- What holds at the start and is kept by every event holds all along a driven run. -/
theorem State.drivenBy_induction (env : Nat → Input) (s : State) {P : State → Prop} (h0 : P s)
    (hs : ∀ e t u, P t → stepEvent e t = .next u → P u) (n : Nat) : P (s.drivenBy env n) := by
  induction n with
  | zero => exact h0
  | succ n ih =>
    rcases s.drivenBy_succ_cases env n with h | h
    · exact hs _ _ _ ih h
    · rwa [h]

end Sys2Proof.Machine
end

