-- ==== Sys2Proof/Tests/Slice0.lean ====
section
/-! SUPPORT. Tests: the WellFormed smoke, decoding by words written out from spec/30 R83, one or two steps per
instruction with the values of spec/95_test_vectors.md, and a named witness for every statement with hypotheses. -/

namespace Sys2Proof.Tests

open Sys2Proof.Machine

/-! ## Helpers -/

/-- The outcome is a next state with the property. -/
def nextIs (o : Host.Outcome State Fault Refusal) (p : State → Bool) : Bool :=
  match o with
  | .next t => p t
  | .fault _ => false
  | .refused _ => false

/-- One step that fetches the word. -/
def stepWord (w : Nat) (s : State) : Host.Outcome State Fault Refusal := step (s.withFetchWord 16 w)

/-- The reset state with some registers set. -/
def withRegs (regs : List (Nibble × Byte)) (s : State) : State := regs.foldl (fun s r => s.writeV r.1 r.2) s

/-- The state after a step, or the state itself. -/
def after (o : Host.Outcome State Fault Refusal) (s : State) : State :=
  match o with
  | .next t => t
  | .fault _ => s
  | .refused _ => s

/-- Legacy block transfer with the advance of R194's alternative. -/
def minusOneConfig : Config := { defaultConfig with loadStoreIndexAdvance := true, legacyAdvanceMinusOne := true }

/-- The lit pixels of a row among the listed columns. -/
def litColumns (s : State) (r : Fin 32) (cols : List (Fin 64)) : List (Fin 64) :=
  cols.filter fun c => s.grid.pixel c r

/-! ## WellFormed: an ill-formed term for each check -/

theorem test_wellFormed_sys_not_cls : (Instr.sys 0x0E0).wellFormed = false := by decide
theorem test_wellFormed_sys_not_ret : (Instr.sys 0x0EE).wellFormed = false := by decide
theorem test_wellFormed_sys_others : (Instr.sys 0x000).WellFormed ∧ (Instr.sys 0x0E1).WellFormed := by decide
theorem test_wellFormed_invalid_family_5_9 :
    (Instr.invalid 0x5AB0).wellFormed = false ∧ (Instr.invalid 0x9AB0).wellFormed = false ∧
    (Instr.invalid 0x5AB1).WellFormed ∧ (Instr.invalid 0x9ABF).WellFormed := by decide
theorem test_wellFormed_invalid_family_8 :
    (Instr.invalid 0x8007).wellFormed = false ∧ (Instr.invalid 0x800E).wellFormed = false ∧
    (Instr.invalid 0x8008).WellFormed ∧ (Instr.invalid 0x800D).WellFormed ∧ (Instr.invalid 0x800F).WellFormed := by decide
theorem test_wellFormed_invalid_family_E :
    (Instr.invalid 0xE09E).wellFormed = false ∧ (Instr.invalid 0xEFA1).wellFormed = false ∧
    (Instr.invalid 0xE09F).WellFormed := by decide
theorem test_wellFormed_invalid_family_F :
    (Instr.invalid 0xF007).wellFormed = false ∧ (Instr.invalid 0xFF65).wellFormed = false ∧
    (Instr.invalid 0xF000).WellFormed ∧ (Instr.invalid 0xFFFF).WellFormed := by decide
theorem test_wellFormed_invalid_other_families :
    (Instr.invalid 0x00E0).wellFormed = false ∧ (Instr.invalid 0x1228).wellFormed = false ∧
    (Instr.invalid 0xD01F).wellFormed = false := by decide

/-! ## Decoding: words written out bit by bit from R83 -/

theorem test_decode_family_0 :
    decode 0b0000000011100000 = .cls ∧ decode 0b0000000011101110 = .ret ∧
    decode 0b0000000100100011 = .sys 0x123 ∧ decode 0b0000000011100001 = .sys 0x0E1 := by decide
theorem test_decode_jumps :
    decode 0b0001001000101000 = .jp 0x228 ∧ decode 0b0010010000000000 = .call 0x400 ∧
    decode 0b1011001100000000 = .jpOff 0x300 := by decide
theorem test_decode_skips :
    decode 0b0011101000000101 = .seImm 0xA 0x05 ∧ decode 0b0100101000000101 = .sneImm 0xA 0x05 ∧
    decode 0b0101101010110000 = .seReg 0xA 0xB ∧ decode 0b1001101010110000 = .sneReg 0xA 0xB := by decide
theorem test_decode_immediates :
    decode 0b0110101000000010 = .ldImm 0xA 0x02 ∧ decode 0b0111101000000001 = .addImm 0xA 0x01 ∧
    decode 0b1100001000111100 = .rnd 0x2 0x3C := by decide
theorem test_decode_family_8 :
    decode 0b1000000000010000 = .ldReg 0 1 ∧ decode 0b1000000000010001 = .orReg 0 1 ∧
    decode 0b1000000000010010 = .andReg 0 1 ∧ decode 0b1000000000010011 = .xorReg 0 1 ∧
    decode 0b1000000000010100 = .addReg 0 1 ∧ decode 0b1000000000010101 = .sub 0 1 ∧
    decode 0b1000000000010110 = .shr 0 1 ∧ decode 0b1000000000010111 = .subn 0 1 ∧
    decode 0b1000000000011110 = .shl 0 1 := by decide
theorem test_decode_index_and_draw :
    decode 0b1010001011101010 = .ldI 0x2EA ∧ decode 0b1101000000011111 = .drw 0 1 0xF := by decide
theorem test_decode_family_E :
    decode 0b1110000010011110 = .skp 0 ∧ decode 0b1110111110100001 = .sknp 0xF := by decide
theorem test_decode_family_F :
    decode 0b1111010100000111 = .ldVxDt 5 ∧ decode 0b1111010100001010 = .ldVxK 5 ∧
    decode 0b1111010100010101 = .ldDtVx 5 ∧ decode 0b1111000100011000 = .ldStVx 1 ∧
    decode 0b1111001000011110 = .addI 2 ∧ decode 0b1111010000101001 = .ldF 4 ∧
    decode 0b1111000000110011 = .ldB 0 ∧ decode 0b1111001001010101 = .ldMemVx 2 ∧
    decode 0b1111111101100101 = .ldVxMem 0xF := by decide
theorem test_decode_invalid :
    decode 0b0101101010110001 = .invalid 0x5AB1 ∧ decode 0b1000000000001000 = .invalid 0x8008 ∧
    decode 0b1110000010011111 = .invalid 0xE09F ∧ decode 0b1111000000011111 = .invalid 0xF01F := by decide

/-- A truncated instruction is refused by name; the bytes after an instruction are left. -/
theorem test_decodeBytes :
    decodeBytes [0x12] = .error .truncated ∧ decodeBytes [0x6A, 0x02, 0x77] = .ok (.ldImm 0xA 0x02, [0x77]) := by
  decide

theorem test_decodeTableWord : decodeTableWord 16 0x6A02 = some (.ldImm 0xA 0x02) := by decide

/-! ## Control transfer (spec/95 2.2) -/

theorem test_jp_odd : nextIs (stepWord 0x1203 State.reset) (fun t => t.pc == 0x203) = true := by decide
theorem test_call_at_top_wraps :
    nextIs (stepWord 0x2300 (State.reset.setPc 0xFFE)) (fun t => t.pc == 0x300 && t.stack == [0x000]) = true := by
  decide
theorem test_call_full :
    nextIs (stepWord 0x2400 ((State.resetWith { defaultConfig with stackDepth := some 2 }).setStack [0x202, 0x40A]))
      (fun t => t.run == .halted (.stackOverflow 0x200 0x400) && t.faultReasonOut == 2 && t.pc == 0x202 &&
        t.stack == [0x202, 0x40A]) = true := by decide
theorem test_ret_pops_last :
    nextIs (stepWord 0x00EE (State.reset.setStack [0x202, 0x40A])) (fun t => t.pc == 0x40A && t.stack == [0x202]) =
      true := by decide
theorem test_ret_empty :
    nextIs (stepWord 0x00EE State.reset)
      (fun t => t.run == .halted (.stackUnderflow 0x200) && t.faultReasonOut == 1 && t.pc == 0x202) = true := by decide
theorem test_jpOff_modern_wraps :
    nextIs (stepWord 0xBFFF (withRegs [(0xF, 0x02)] State.reset)) (fun t => t.pc == 0x001) = true := by decide
theorem test_jpOff_legacy :
    nextIs (stepWord 0xB300 (withRegs [(0, 0x10), (3, 0x05)]
      (State.resetWith { defaultConfig with jumpV0Legacy := true }))) (fun t => t.pc == 0x310) = true := by decide
theorem test_seImm_wraps :
    nextIs (stepWord 0x3000 (State.reset.setPc 0xFFC)) (fun t => t.pc == 0x000) = true := by decide
theorem test_sneImm :
    nextIs (stepWord 0x4A05 (withRegs [(0xA, 0x06)] State.reset)) (fun t => t.pc == 0x204) = true := by decide
theorem test_seReg :
    nextIs (stepWord 0x5AB0 (withRegs [(0xA, 0x07), (0xB, 0x07)] State.reset)) (fun t => t.pc == 0x204) = true := by
  decide
theorem test_sneReg_equal :
    nextIs (stepWord 0x9AB0 (withRegs [(0xA, 0x07), (0xB, 0x07)] State.reset)) (fun t => t.pc == 0x202) = true := by
  decide
theorem test_sys_nop :
    nextIs (stepWord 0x0123 State.reset) (fun t => t.pc == 0x202 && t.run == .running) = true := by decide
theorem test_sys_fault :
    nextIs (stepWord 0x0123 (State.resetWith { defaultConfig with sysAction := .fault }))
      (fun t => t.run == .halted (.sysUnsupported 0x200 0x123) && t.faultReasonOut == 3) = true := by decide
theorem test_invalid :
    nextIs (stepWord 0xF0FF State.reset) (fun t => t.pc == 0x202 && t.run == .running) = true := by decide

/-! ## Arithmetic (spec/95 1.3, 1.4, 2.3) -/

theorem test_ldImm : nextIs (stepWord 0x6A02 State.reset) (fun t => t.readV 0xA == 0x02) = true := by decide
theorem test_addImm_no_carry :
    nextIs (stepWord 0x7AFF (withRegs [(0xA, 0x02), (0xF, 0x09)] State.reset))
      (fun t => t.readV 0xA == 0x01 && t.readV 0xF == 0x09) = true := by decide
theorem test_ldReg : nextIs (stepWord 0x8010 (withRegs [(1, 0xAB)] State.reset)) (fun t => t.readV 0 == 0xAB) = true := by
  decide
theorem test_orReg_no_flag :
    nextIs (stepWord 0x8011 (withRegs [(0, 0xF0), (1, 0x0F), (0xF, 0x07)] State.reset))
      (fun t => t.readV 0 == 0xFF && t.readV 0xF == 0x07) = true := by decide
theorem test_andReg :
    nextIs (stepWord 0x8012 (withRegs [(0, 0xF0), (1, 0x3C)] State.reset)) (fun t => t.readV 0 == 0x30) = true := by
  decide
theorem test_xorReg :
    nextIs (stepWord 0x8013 (withRegs [(0, 0xFF), (1, 0x0F)] State.reset)) (fun t => t.readV 0 == 0xF0) = true := by
  decide
theorem test_addReg_carry :
    nextIs (stepWord 0x8014 (withRegs [(0, 0xFF), (1, 0x02)] State.reset))
      (fun t => t.readV 0 == 0x01 && t.readV 0xF == 1) = true := by decide
theorem test_addReg_flag_wins :
    nextIs (stepWord 0x8FF4 (withRegs [(0xF, 0x80)] State.reset)) (fun t => t.readV 0xF == 1) = true := by decide
theorem test_sub_borrow :
    nextIs (stepWord 0x8015 (withRegs [(1, 0x01)] State.reset)) (fun t => t.readV 0 == 0xFF && t.readV 0xF == 0) =
      true := by decide
theorem test_sub_equal :
    nextIs (stepWord 0x8015 (withRegs [(0, 0x05), (1, 0x05), (0xF, 0x01)] State.reset))
      (fun t => t.readV 0 == 0x00 && t.readV 0xF == 0) = true := by decide
theorem test_subn :
    nextIs (stepWord 0x8017 (withRegs [(0, 0x03), (1, 0x05)] State.reset))
      (fun t => t.readV 0 == 0x02 && t.readV 0xF == 1) = true := by decide
theorem test_subn_borrow :
    nextIs (stepWord 0x8017 (withRegs [(0, 0x01)] State.reset)) (fun t => t.readV 0 == 0xFF && t.readV 0xF == 0) =
      true := by decide
theorem test_shr_modern :
    nextIs (stepWord 0x8016 (withRegs [(0, 0x01), (1, 0x80)] State.reset))
      (fun t => t.readV 0 == 0x00 && t.readV 0xF == 1) = true := by decide
theorem test_shr_legacy :
    nextIs (stepWord 0x8016 (withRegs [(0, 0x01), (1, 0x80)] (State.resetWith { defaultConfig with shiftLegacy := true })))
      (fun t => t.readV 0 == 0x40 && t.readV 1 == 0x80 && t.readV 0xF == 0) = true := by decide
theorem test_shl :
    nextIs (stepWord 0x800E (withRegs [(0, 0x81)] State.reset)) (fun t => t.readV 0 == 0x02 && t.readV 0xF == 1) =
      true := by decide
theorem test_shl_legacy :
    nextIs (stepWord 0x801E (withRegs [(0, 0x01), (1, 0x81)] (State.resetWith { defaultConfig with shiftLegacy := true })))
      (fun t => t.readV 0 == 0x02 && t.readV 0xF == 1) = true := by decide

/-- Whatever byte is drawn, masking by 0 gives 0 (R161). -/
theorem test_rnd_zero_mask (s : State) : nextIs (exec (.rnd 2 0x00) s) (fun t => t.readV 2 == 0) = true := by
  simp [nextIs, exec, execRnd, State.readV, State.writeV, State.setV, State.countDraw, State.setDraws]

/-! ## Index and memory (spec/95 2.4) -/

theorem test_ldI : nextIs (stepWord 0xA2EA State.reset) (fun t => t.i == 0x2EA) = true := by decide
theorem test_addI_default_keeps_VF :
    nextIs (stepWord 0xF01E (withRegs [(0, 0x01), (0xF, 0x09)] (State.reset.setI 0x0FFF)))
      (fun t => t.i == 0x0000 && t.readV 0xF == 0x09) = true := by decide
theorem test_addI_flag :
    nextIs (stepWord 0xF01E (withRegs [(0, 0x01), (0xF, 0x09)]
      ((State.resetWith { defaultConfig with indexOverflowFlag := true }).setI 0x0FFE)))
      (fun t => t.i == 0x0FFF && t.readV 0xF == 0) = true := by decide
theorem test_ldF_low_nibble :
    nextIs (stepWord 0xF029 (withRegs [(0, 0x1F)] State.reset)) (fun t => t.i == 0x09B) = true := by decide
theorem test_ldB :
    nextIs (stepWord 0xF033 (withRegs [(0, 0xFE)] (State.reset.setI 0x300)))
      (fun t => t.readBlock 0x300 3 == [0x02, 0x05, 0x04] && t.i == 0x300) = true := by decide
theorem test_ldB_wraps :
    nextIs (stepWord 0xF033 (withRegs [(0, 0x07)] (State.reset.setI 0x0FFE)))
      (fun t => t.readByte 0xFFE == 0 && t.readByte 0xFFF == 0 && t.readByte 0x000 == 7) = true := by decide
theorem test_ldMemVx_wraps :
    nextIs (stepWord 0xF255 (withRegs [(0, 1), (1, 2), (2, 3)] (State.reset.setI 0x0FFF)))
      (fun t => t.readByte 0xFFF == 1 && t.readByte 0x000 == 2 && t.readByte 0x001 == 3 && t.i == 0x0FFF) = true := by
  decide
theorem test_ldMemVx_minus_one :
    nextIs (stepWord 0xF355 ((State.resetWith minusOneConfig).setI 0x300)) (fun t => t.i == 0x303) = true := by decide
theorem test_ldVxMem :
    nextIs (stepWord 0xF265 ((State.reset.storeBlock 0x300 [0x02, 0x05, 0x04]).setI 0x300))
      (fun t => t.readV 0 == 0x02 && t.readV 1 == 0x05 && t.readV 2 == 0x04) = true := by decide
theorem test_ldVxMem_advance :
    nextIs (stepWord 0xF065 (((State.resetWith { defaultConfig with loadStoreIndexAdvance := true }).writeByte 0xFFF
      0x42).setI 0x0FFF)) (fun t => t.readV 0 == 0x42 && t.i == 0x1000) = true := by decide
theorem test_fetch_wraps :
    nextIs (step (((State.reset.writeByte 0xFFF 0x61).writeByte 0x000 0x23).setPc 0xFFF))
      (fun t => t.readV 1 == 0x23 && t.pc == 0x001) = true := by decide
theorem test_font : State.reset.readBlock 0x082 5 = [0xF0, 0x90, 0xF0, 0x90, 0x90] := by decide

/-- A store removes the entry it makes redundant: the heap stays in its canonical form. -/
theorem test_canonical :
    ((State.reset.writeByte 0x300 1).writeByte 0x300 0).heap = [] ∧ (State.reset.writeByte 0x050 0xF0).heap = [] := by
  decide

/-! ## Display (spec/95 1.6, 2.5) -/

theorem test_cls :
    nextIs (stepWord 0x00E0 (State.reset.setGrid (State.reset.grid.setPixel 5 5 true)))
      (fun t => !t.grid.pixel 5 5 && t.pc == 0x202) = true := by decide
theorem test_drw_wraps_columns :
    nextIs (stepWord 0xD011 (withRegs [(0, 63)] ((State.reset.writeByte 0x300 0xC0).setI 0x300)))
      (fun t => litColumns t 0 [62, 63, 0, 1] == [63, 0] && t.readV 0xF == 0) = true := by decide
theorem test_drw_clips_rows :
    nextIs (stepWord 0xD013 (withRegs [(1, 31)] ((State.reset.storeBlock 0x300 [0x80, 0x80, 0x80]).setI 0x300)))
      (fun t => t.grid.pixel 0 31 && !t.grid.pixel 0 0 && !t.grid.pixel 0 1) = true := by decide

/-! ## Timers and keys (spec/95 2.6) -/

theorem test_ldDtVx : nextIs (stepWord 0xF015 (withRegs [(0, 0x3C)] State.reset)) (fun t => t.dt == 0x3C) = true := by
  decide
theorem test_ldStVx :
    nextIs (stepWord 0xF018 (withRegs [(0, 0x02)] State.reset)) (fun t => t.st == 0x02 && t.toneOut) = true := by decide
theorem test_ldVxDt : nextIs (stepWord 0xF007 (State.reset.setDt 0x2A)) (fun t => t.readV 0 == 0x2A) = true := by decide
theorem test_skp :
    nextIs (stepWord 0xE39E (withRegs [(3, 0x04)] (State.reset.setKeys 0x0010))) (fun t => t.pc == 0x204) = true := by
  decide
theorem test_skp_no_key :
    nextIs (stepWord 0xE39E (withRegs [(3, 0x14)] (State.reset.setKeys 0x0010))) (fun t => t.pc == 0x202) = true := by
  decide
theorem test_sknp :
    nextIs (stepWord 0xE3A1 (withRegs [(3, 0x04)] (State.reset.setKeys 0x0010))) (fun t => t.pc == 0x202) = true := by
  decide
theorem test_ldVxK_waits :
    nextIs (stepWord 0xF50A (withRegs [(5, 0x77)] State.reset)) (fun t => t.pc == 0x200 && t.readV 5 == 0x77) = true := by
  decide
theorem test_ldVxK_takes :
    nextIs (stepWord 0xF50A (State.reset.setKeys 0x0080)) (fun t => t.pc == 0x202 && t.readV 5 == 0x07) = true := by decide

/-- Ticks floor at 0 (R262). -/
theorem test_tick :
    nextIs (step (((State.reset.setDt 0x01).setSt 0x00).setInputs [.tick, .step]))
      (fun t => t.dt == 0 && t.st == 0 && t.pc == 0x200 && t.inputs == [.step]) = true := by decide

/-- The trace of spec/95 1.8, in milliseconds: no event before 17 ms, one at 17, 34, 100, 101, 102 and 103, none at 104. -/
theorem test_driver :
    (TimerDriver.start.calls 1000 [1, 16, 17, 18, 33]).2.length = 1 ∧
    (TimerDriver.start.calls 1000 [17, 34, 100, 101, 102, 103, 104]).2.length = 6 := by decide

/-! ## Witnesses: a concrete state and operands that meet each statement's hypotheses, at its clauses' boundaries

Each is named after the obligation; where a statement has several clauses each clause has its conjunct. -/

/-- A small subroutine call's two states. -/
def beforeCall : State := State.reset.setPc 0xFFE
def afterCall : State := after (exec (.call 0x300) beforeCall) beforeCall

/-- The registers of the block-store tests. -/
def blockState : State := withRegs [(0, 0x12), (1, 0x34), (0xF, 0x56)] (State.reset.setI 0x202)

/-- A reset state with a pixel lit where the sprite at 0x300 is drawn. -/
def drawState : State := (State.reset.writeByte 0x300 0xC0).setI 0x300

/-- A one-word program, booted: the font, then the image. -/
def booted : State :=
  ((State.resetWith defaultConfig).load (fontBytes defaultConfig) defaultConfig.fontBase).load [0x12, 0x00]
    defaultConfig.programOrigin

theorem eq_own_setters (s : State) : s = ((s.setKeys s.keys).setDraws s.draws).setInputs s.inputs := rfl

theorem eq_next_after {o : Host.Outcome State Fault Refusal} {p : State → Bool} {s : State} (h : nextIs o p = true) :
    o = .next (after o s) := by
  cases o with
  | next t => rfl
  | fault r => cases h
  | refused r => cases h

theorem witness_DecodeOfEncodeGivesInstruction :
    (Instr.sys 0xFFF).WellFormed ∧ (Instr.invalid 0xFFFF).WellFormed ∧ (Instr.drw 0xF 0xF 0).WellFormed := by decide
theorem witness_OnlyUnmatchedWordsAreInvalid :
    decode 0x5AB1 = .invalid 0x5AB1 ∧ decode 0x9ABF = .invalid 0x9ABF ∧ decode 0x800D = .invalid 0x800D ∧
    decode 0x8008 = .invalid 0x8008 ∧ decode 0x800F = .invalid 0x800F ∧ decode 0xE09F = .invalid 0xE09F ∧
    decode 0xF000 = .invalid 0xF000 ∧ decode 0xFFFF = .invalid 0xFFFF ∧ decode 0x0FFF ≠ .invalid 0x0FFF := by decide
theorem witness_TagOutputRangesOverVariantNumbers :
    (Instr.sys 0x000).WellFormed ∧ (Instr.invalid 0xF0FF).WellFormed ∧ (decoderPort 0xFFFF).tag.toNat = 0 ∧ (decoderPort 0xFF65).tag.toNat = 35 ∧ (decoderPort 0x0000).tag.toNat = 3 := by
  decide
theorem witness_AssemblyLineDeterminesInstruction : assemblyLine (.seReg 1 2) = assemblyLine (.seReg 1 2) := by decide
theorem witness_StepExecutesDecodedInstruction :
    (State.reset.run = .running ∧ State.reset.nextInput = .step ∧ decode State.reset.fetchWord = .sys 0x000) ∧
    (State.reset.raiseFatal (.stackUnderflow 0x200)).run ≠ .running := by decide
theorem witness_StepStopsExactlyWhenHalted :
    (State.reset.raiseFatal (.stackUnderflow 0x200)).run = .halted (.stackUnderflow 0x200) ∧
    (State.reset.raiseFatal (.stackOverflow 0x200 0x400)).run = .halted (.stackOverflow 0x200 0x400) ∧
    (State.reset.raiseFatal (.sysUnsupported 0x200 0x123)).run = .halted (.sysUnsupported 0x200 0x123) ∧
    State.reset.run = .running := by decide
theorem witness_TickDecrementsBothTimers :
    ((State.reset.setDt 0xFF).setInputs [.tick]).run = .running ∧
    ((State.reset.setDt 0xFF).setInputs [.tick]).nextInput = .tick := by decide
theorem witness_KeyChangeSetsOnlyKeypadLevel :
    (State.reset.setInputs [.keys 0xFFFF]).run = .running ∧
    (State.reset.setInputs [.keys 0xFFFF]).nextInput = .keys 0xFFFF := by decide
theorem witness_SysIsNoOpOrFatal :
    (0x000#12).toNat ≠ 0x0E0 ∧ (0x000#12).toNat ≠ 0x0EE ∧ State.reset.cfg.sysAction = .nop ∧
    (State.resetWith { defaultConfig with sysAction := .fault }).cfg.sysAction = .fault := by decide
theorem witness_InvalidWordsAreNoOps : invalidWord 0x5001 = true ∧ invalidWord 0xFFFF = true := by decide
theorem witness_RetPopsReturnAddressOrIsFatal :
    (State.reset.setStack [0x202, 0xFFF]).stack = [0x202] ++ [0xFFF] ∧ State.reset.stack = [] := by decide
/-- One entry of room left, none left at depths 2 and 0, and the unbounded default. -/
theorem witness_CallPushesReturnAddressOrIsFatal :
    (∀ d, ((State.resetWith { defaultConfig with stackDepth := some 2 }).setStack [0x202]).cfg.stackDepth = some d →
      ((State.resetWith { defaultConfig with stackDepth := some 2 }).setStack [0x202]).stack.length < d) ∧
    (∀ d, (State.reset.setStack [0x202, 0x204]).cfg.stackDepth = some d →
      (State.reset.setStack [0x202, 0x204]).stack.length < d) ∧
    (((State.resetWith { defaultConfig with stackDepth := some 2 }).setStack [0x202, 0x204]).cfg.stackDepth = some 2 ∧
      ((State.resetWith { defaultConfig with stackDepth := some 2 }).setStack [0x202, 0x204]).stack.length = 2) ∧
    ((State.resetWith { defaultConfig with stackDepth := some 0 }).cfg.stackDepth = some 0 ∧
      (State.resetWith { defaultConfig with stackDepth := some 0 }).stack.length = 0) := by
  refine ⟨fun d h => ?_, fun d h => ?_, by decide, by decide⟩
  · cases h; decide
  · cases h
theorem witness_JpOffAddsOffsetRegister :
    (0xF#4).toNat = (0xFFF#12).toNat / 256 ∧ (0x0#4).toNat = (0x0FF#12).toNat / 256 := by decide
theorem witness_RetResumesAfterCall :
    beforeCall.pc.toNat < 4096 ∧ exec (.call 0x300) beforeCall = .next afterCall ∧
    afterCall.run = beforeCall.run ∧ beforeCall.run = .running ∧ (afterCall.setPc 0x400).stack = afterCall.stack :=
  ⟨by decide, rfl, rfl, rfl, rfl⟩
theorem witness_ShrHalvesSourceAndKeepsLowBit :
    (0x80#8) = (if (withRegs [(0, 0x80), (1, 0x01)] State.reset).cfg.shiftLegacy
      then (withRegs [(0, 0x80), (1, 0x01)] State.reset).readV 1
      else (withRegs [(0, 0x80), (1, 0x01)] State.reset).readV 0) := by decide
theorem witness_ShlDoublesSourceAndKeepsHighBit :
    (0x7F#8) = (if (withRegs [(0xF, 0x7F)] State.reset).cfg.shiftLegacy
      then (withRegs [(0xF, 0x7F)] State.reset).readV 0 else (withRegs [(0xF, 0x7F)] State.reset).readV 0xF) := by decide
theorem witness_AddIReducesIndexAndFlagsByConfiguration :
    State.reset.cfg.indexOverflowFlag = false ∧
    (State.resetWith { defaultConfig with indexOverflowFlag := true }).cfg.indexOverflowFlag = true := by decide
/-- The block FFF, 000: a byte just outside it on each side. -/
theorem witness_LdMemVxStoresRegisterBlock :
    (∀ k ≤ (1#4).toNat, 0xFFE % 4096 ≠ (0xFFF + k) % 4096) ∧ ∀ k ≤ (1#4).toNat, 0x001 % 4096 ≠ (0xFFF + k) % 4096 := by
  decide
theorem witness_LdBStoresDecimalDigits :
    (∀ k < 3, 0xFFE % 4096 ≠ (0xFFF + k) % 4096) ∧ ∀ k < 3, 0x002 % 4096 ≠ (0xFFF + k) % 4096 := by decide
theorem witness_StoredBlockLoadsBack :
    exec (.ldMemVx 1) blockState = .next (after (exec (.ldMemVx 1) blockState) blockState) ∧
    ((after (exec (.ldMemVx 1) blockState) blockState).setV State.reset.v).i = blockState.i := ⟨rfl, by decide⟩
/-- The block's first byte is the second byte at pc (k = 0, half 1), its last one the first byte at pc (half 0), and pc
and pc + 1 lie just outside it. -/
theorem witness_StoreIsSeenByNextFetch :
    ((blockState.setPc 0x201).pc.toNat + 1) % 4096 = ((blockState.setPc 0x201).i.toNat + 0) % 4096 ∧
    ((blockState.setPc 0x204).pc.toNat + 0) % 4096 = ((blockState.setPc 0x204).i.toNat + 2) % 4096 ∧
    (∀ k < 3, ((blockState.setPc 0x201).pc.toNat + 0) % 4096 ≠ ((blockState.setPc 0x201).i.toNat + k) % 4096) ∧
    ∀ k < 3, ((blockState.setPc 0x204).pc.toNat + 1) % 4096 ≠ ((blockState.setPc 0x204).i.toNat + k) % 4096 := by decide
theorem witness_DrwXorsSpriteAndFlagsCollision :
    ((drawState.setGrid (Grid.clear.setPixel 1 0 true)).drawCovers 0 0 1 1 0 = true ∧
      (drawState.setGrid (Grid.clear.setPixel 1 0 true)).grid.pixel 1 0 = true) ∧
    ∀ c : Fin 64, ∀ r : Fin 32, drawState.grid.pixel c r = false :=
  ⟨by decide, Grid.pixel_clear⟩
theorem witness_DrawingTwiceRestoresGrid :
    exec (.drw 0 0 1) drawState = .next (after (exec (.drw 0 0 1) drawState) drawState) ∧
    nextIs (exec (.drw 0 0 1) ((after (exec (.drw 0 0 1) drawState) drawState).setV drawState.v))
      (fun u => u.readV 0xF == 1 && !u.grid.pixel 0 0) = true :=
  ⟨rfl, by decide⟩
theorem witness_ClippedSpriteStaysInItsRows :
    State.reset.cfg.spriteWrapY = false ∧ (30 : Nat) < ((withRegs [(1, 31)] State.reset).readV 1).toNat % 32 ∧
    ((withRegs [(1, 29)] State.reset).readV 1).toNat % 32 + (2#4).toNat ≤ 31 := by decide
theorem witness_WaitForKeyTakesPressedKeyOrRepeats :
    State.reset.keys = 0 ∧ (State.reset.setKeys 0x8000).keys ≠ 0 := by decide
theorem witness_DelayTimerRisesOnlyByWrite :
    nextIs (stepWord 0xF015 (withRegs [(0, 0x01)] State.reset)) (fun t => decide (State.reset.dt.toNat < t.dt.toNat)) =
      true := by decide
/-- A call exactly one interval after the reference time, one just short of it, and calls up to a latest time. -/
theorem witness_DriverNeverOutrunsWallClock :
    0 < 1000 ∧ (1 : ℚ) / 60 ≤ (50 : ℕ) / (1000 : ℕ) - (2 : ℕ) / 60 ∧ ((49 : ℕ) / (1000 : ℕ) - (2 : ℕ) / 60 : ℚ) < 1 / 60 ∧
    ∀ now ∈ [17, 34, 100], now ≤ 100 := by
  refine ⟨by decide, ?_, ?_, by decide⟩ <;> norm_num
theorem witness_EveryStepKeepsMachineInvariant :
    State.reset.Inv ∧ nextIs (step State.reset) (fun t => t.pc == 0x202) = true :=
  ⟨⟨by decide, fun _ h => (List.not_mem_nil h).elim, fun _ _ => Nat.zero_le _, fun _ => by decide, rfl⟩, by decide⟩
set_option maxRecDepth 4000 in
theorem booted_steps : nextIs (step booted) (fun t => t.pc == 0x200) = true := by decide

/-- A booted state is the start of a run, and it reaches the state after its first step, a jump to itself. -/
theorem witness_EveryRunKeepsMachineInvariant : StartOfRun booted ∧ Reaches booted (after (step booted) booted) :=
  ⟨⟨defaultConfig, [0x12, 0x00], booted, if_pos (by decide), booted.keys, booted.draws, booted.inputs,
      eq_own_setters booted⟩,
    .step .refl (eq_next_after booted_steps)⟩
theorem witness_OnlyClsAndDrwWriteGrid :
    nextIs (exec (.drw 0 0 1) drawState) (fun t => t.grid.pixel 0 0 != drawState.grid.pixel 0 0) = true ∧
    nextIs (exec .cls (drawState.setGrid (Grid.clear.setPixel 63 31 true)))
      (fun t => t.grid.pixel 63 31 != (Grid.clear.setPixel 63 31 true).pixel 63 31) = true := by decide
theorem witness_OnlyStoresWriteHeap :
    nextIs (exec (.ldMemVx 0) blockState) (fun t => t.readByte 0x202 != blockState.readByte 0x202) = true ∧
    nextIs (exec (.ldB 0) blockState) (fun t => t.readByte 0x204 != blockState.readByte 0x204) = true := by decide
theorem witness_OnlyCallAndRetChangeStack :
    afterCall.stack ≠ beforeCall.stack ∧ nextIs (exec .ret afterCall) (fun t => t.stack != afterCall.stack) = true := by
  decide
theorem witness_OnlyListedInstructionsWriteVF :
    nextIs (exec (.sub 0 1) (withRegs [(0, 1)] State.reset)) (fun t => t.readV 0xF != 0) = true ∧
    nextIs (exec (.ldImm 0xF 1) State.reset) (fun t => t.readV 0xF != 0) = true := by decide
theorem witness_OnlyRetCallSysEndRun :
    nextIs (exec .ret State.reset) (fun t => t.run != State.reset.run) = true := by decide
theorem witness_EndOfRunIsStable :
    (State.reset.withFetchWord 16 0x1200).AtEnd 0x200 ∧
    nextIs (stepWord 0x1200 State.reset) (fun t => t.pc == 0x200) = true :=
  ⟨⟨by decide, by decide, by decide⟩, by decide⟩
theorem witness_ConfigurationIsFixedForRun : Reaches booted (after (step booted) booted) :=
  witness_EveryRunKeepsMachineInvariant.2
/-- The delay timer counting at a self-jump. -/
def selfJump : State := (State.reset.withFetchWord 16 0x1200).setDt 0x05

/-- A step, then a tick, for good. -/
def stepAndTick (n : Nat) : Input := if n % 2 = 0 then .step else .tick

theorem selfJump_driven (env : Nat → Input) (n : Nat) :
    (selfJump.drivenBy env n).run = .running ∧ (selfJump.drivenBy env n).pc = 0x200 ∧
      (selfJump.drivenBy env n).fetchWord = 0x1200 := by
  refine selfJump.drivenBy_induction env (P := fun t => t.run = .running ∧ t.pc = 0x200 ∧ t.fetchWord = 0x1200)
    (by decide) ?_ n
  rintro e t u ⟨hr, hp, hw⟩ h
  obtain ⟨_, ⟨_, he⟩ | ⟨_, rfl⟩ | ⟨k, _, rfl⟩⟩ := stepEvent_next_cases h
  · rw [hw, show decode 0x1200 = .jp 0x200 by decide] at he
    cases he
    refine ⟨hr, rfl, ?_⟩
    rw [← hw, State.fetchWord, State.fetchWord, hp]
    rfl
  · exact ⟨hr, hp, hw⟩
  · exact ⟨hr, hp, hw⟩

theorem witness_FairTicksRunDelayTimerOut :
    (TicksWeaklyFair stepAndTick selfJump ∧ (∀ m, (selfJump.drivenBy stepAndTick m).run = .running) ∧
      ∀ m, 0 ≤ m → stepAndTick m = .step → ∀ x, decode (selfJump.drivenBy stepAndTick m).fetchWord ≠ .ldDtVx x) ∧
    selfJump.AtEnd 0x200 ∧ ∀ m : Nat, (fun _ => Input.step : Nat → Input) m ≠ .tick := by
  refine ⟨⟨fun n _ => ⟨2 * n + 1, by omega, ?_⟩, fun m => (selfJump_driven _ m).1, fun m _ _ x => ?_⟩,
    ⟨by decide, by decide, by decide⟩, fun _ => Input.noConfusion⟩
  · rw [stepAndTick, if_neg (by omega)]
  · rw [(selfJump_driven _ m).2.2, show decode 0x1200 = .jp 0x200 by decide]
    exact Instr.noConfusion

/-- An image that just fits, one byte more, and bytes of the font and of free memory outside the image. -/
theorem witness_BootPlacesFontAndImage :
    boot { defaultConfig with programOrigin := 0xFFF } [0x12] ≠ none ∧
    boot { defaultConfig with programOrigin := 0xFFF } [0x12, 0x34] = none ∧
    (0x09F = (defaultConfig.fontBase.toNat + 5 * 15 + 4) % 4096) ∧
    ∀ k < 80, 0x0A0 ≠ (defaultConfig.fontBase.toNat + k) % 4096 := by decide
theorem witness_ResetLeavesListedValues :
    (∀ k < 80, 0x04F ≠ (defaultConfig.fontBase.toNat + k) % 4096) ∧
    State.reset.readByte 0x09F = 0x80 ∧ State.reset.readByte 0x0A0 = 0x00 := by decide

end Sys2Proof.Tests
end

section
/-! The fields that the two block transfers leave alone: a block store writes the heap, a block load the registers. -/

namespace Sys2Proof.Machine

variable (s : State) (bs : List Byte)

@[simp] theorem State.storeBlock_stack (a : Nat) : (s.storeBlock a bs).stack = s.stack := by
  rw [State.storeBlock_eq_setHeap, State.setHeap_stack]

@[simp] theorem State.storeBlock_grid (a : Nat) : (s.storeBlock a bs).grid = s.grid := by
  rw [State.storeBlock_eq_setHeap, State.setHeap_grid]

@[simp] theorem State.readV_storeBlock (a : Nat) (j : Nibble) : (s.storeBlock a bs).readV j = s.readV j := by
  rw [State.storeBlock_eq_setHeap, State.readV_setHeap]

@[simp] theorem State.loadRegs_cfg (first : Nat) : (s.loadRegs first bs).cfg = s.cfg := by
  rw [State.loadRegs_eq_setV, State.setV_cfg]

@[simp] theorem State.loadRegs_stack (first : Nat) : (s.loadRegs first bs).stack = s.stack := by
  rw [State.loadRegs_eq_setV, State.setV_stack]

@[simp] theorem State.loadRegs_grid (first : Nat) : (s.loadRegs first bs).grid = s.grid := by
  rw [State.loadRegs_eq_setV, State.setV_grid]

end Sys2Proof.Machine
end

section
/-! Everything an instruction can do to the state, said once. `exec` gives 36 meanings; `Effect` sorts them into the few
shapes of state that they leave, each with the instructions that leave it, and the claims about every instruction are
case analyses of it. -/

namespace Sys2Proof.Machine

/-- The instructions whose result is the one register `x`, with no flag beside it (R150 to R155, R161, R250, R255). -/
def HasDestination (i : Instr) (x : Nibble) : Prop :=
  (∃ kk, i = .ldImm x kk ∨ i = .addImm x kk ∨ i = .rnd x kk) ∨
  (∃ y, i = .ldReg x y ∨ i = .orReg x y ∨ i = .andReg x y ∨ i = .xorReg x y) ∨
  i = .ldVxDt x ∨ i = .ldVxK x

/-- The instructions that write a result and then its flag (R142, R156 to R160). -/
def WritesResultAndFlag (i : Instr) : Prop :=
  ∃ x y, i = .addReg x y ∨ i = .sub x y ∨ i = .subn x y ∨ i = .shr x y ∨ i = .shl x y

/-- The instructions that can raise a fatal condition (R302 to R304). -/
def CanEndRun (i : Instr) : Prop := i = .ret ∨ (∃ nnn, i = .call nnn) ∨ ∃ nnn, i = .sys nnn

/-- `Effect s i t`: `t` has one of the shapes that executing `i` in `s` can leave. A constructor names its instructions
where a claim turns on them and its values where the invariant does; `exec_effect` ties it to `exec`. -/
inductive Effect (s : State) : Instr → State → Prop where
  | idle {i : Instr} : Effect s i s
  | movePc {i : Instr} {a : Word} (ha : a = s.pc ∨ a.toNat < 4096) : Effect s i (s.setPc a)
  | fatal {i : Instr} {r : FatalReason} (hi : CanEndRun i) : Effect s i (s.raiseFatal r)
  | call {nnn : Addr} (hroom : s.stackFull = false) :
      Effect s (.call nnn) ((s.push s.pc).setPc (nnn.setWidth 16))
  | ret {rest : List Word} {w : Word} (hs : s.stack = rest ++ [w]) :
      Effect s .ret ((s.setStack rest).setPc (wrapAddr w.toNat))
  | writeReg {i : Instr} {x : Nibble} {b : Byte} {draws : Nat} (hi : HasDestination i x) :
      Effect s i ((s.setDraws draws).writeV x b)
  | writeResult {i : Instr} {x : Nibble} {b : Byte} {c : Bool} (hi : WritesResultAndFlag i) :
      Effect s i (s.writeResultAndFlag x b c)
  | setI {i : Instr} {a : Word} (ha : a.toNat < 4096) : Effect s i (s.setI a)
  | setIAndFlag {x : Nibble} {a : Word} {c : Bool} (hcfg : s.cfg.indexOverflowFlag = true) (ha : a.toNat < 4096) :
      Effect s (.addI x) ((s.setI a).writeFlag c)
  | storeDigits {x : Nibble} : Effect s (.ldB x) (s.storeBlock s.i.toNat (decimalDigits (s.readV x)))
  | storeRegs {x : Nibble} :
      Effect s (.ldMemVx x) ((s.storeBlock s.i.toNat (s.firstRegs x)).setI (s.advancedIndex x))
  | loadRegs {x : Nibble} :
      Effect s (.ldVxMem x) ((s.loadRegs 0 (s.readBlock s.i.toNat (x.toNat + 1))).setI (s.advancedIndex x))
  | clear : Effect s .cls (s.setGrid Grid.clear)
  | draw {x y n : Nibble} {g : Grid} {c : Bool} :
      Effect s (.drw x y n) (((s.writeFlag false).setGrid g).writeFlag c)
  | setDt {x : Nibble} : Effect s (.ldDtVx x) (s.setDt (s.readV x))
  | setSt {x : Nibble} : Effect s (.ldStVx x) (s.setSt (s.readV x))

/-- A skip stays at the following instruction or moves past it. -/
theorem Effect.skipIf (i : Instr) (s : State) (c : Bool) : Effect s i (s.skipIf c) := by
  cases c
  · exact .idle
  · exact .movePc (.inr (wrapAddr_lt _))

/-- A register write with no free draw made. -/
theorem Effect.writeV {i : Instr} {s : State} {x : Nibble} {b : Byte} (hi : HasDestination i x) :
    Effect s i (s.writeV x b) :=
  .writeReg (draws := s.draws) hi

theorem setWidth_addr_lt (nnn : Addr) : (nnn.setWidth 16).toNat < 4096 := by
  have := nnn.isLt
  simp only [BitVec.toNat_setWidth]
  omega

theorem execSys_effect (nnn : Addr) (s : State) : ∃ t, execSys nnn s = .next t ∧ Effect s (.sys nnn) t := by
  unfold execSys
  split
  · exact ⟨_, rfl, .idle⟩
  · exact ⟨_, rfl, .fatal (.inr (.inr ⟨nnn, rfl⟩))⟩

theorem execRet_effect (s : State) : ∃ t, execRet s = .next t ∧ Effect s .ret t := by
  unfold execRet
  obtain ⟨-, hpop⟩ | ⟨rest, w, hs, hpop⟩ := s.pop_cases
  · exact ⟨_, by rw [hpop], .fatal (.inl rfl)⟩
  · exact ⟨_, by rw [hpop], .ret hs⟩

theorem execCall_effect (nnn : Addr) (s : State) : ∃ t, execCall nnn s = .next t ∧ Effect s (.call nnn) t := by
  unfold execCall
  split
  · exact ⟨_, rfl, .fatal (.inr (.inl ⟨nnn, rfl⟩))⟩
  · next hroom => exact ⟨_, rfl, .call (Bool.eq_false_iff.mpr hroom)⟩

theorem execAddI_effect (x : Nibble) (s : State) : ∃ t, execAddI x s = .next t ∧ Effect s (.addI x) t := by
  refine ⟨_, rfl, ?_⟩
  split
  · next hcfg => exact .setIAndFlag hcfg (wrapAddr_lt _)
  · exact .setI (wrapAddr_lt _)

theorem execLdVxK_effect (x : Nibble) (s : State) : ∃ t, execLdVxK x s = .next t ∧ Effect s (.ldVxK x) t := by
  unfold execLdVxK
  split
  · exact ⟨_, rfl, .movePc (.inr (wrapAddr_lt _))⟩
  · exact ⟨_, rfl, .writeReg (by simp [HasDestination])⟩

/-- Every instruction answers a next state in every state (R306), and the state is one of its effects. -/
theorem exec_effect (i : Instr) (s : State) : ∃ t, exec i s = .next t ∧ Effect s i t := by
  cases i with
  | cls => exact ⟨_, rfl, .clear⟩
  | ret => exact execRet_effect s
  | sys nnn => exact execSys_effect nnn s
  | jp nnn => exact ⟨_, rfl, .movePc (.inr (setWidth_addr_lt nnn))⟩
  | call nnn => exact execCall_effect nnn s
  | seImm | sneImm | seReg | sneReg | skp | sknp => exact ⟨_, rfl, .skipIf _ s _⟩
  | ldImm | addImm | ldReg | orReg | andReg | xorReg | ldVxDt =>
    exact ⟨_, rfl, .writeV (by simp [HasDestination])⟩
  | rnd => exact ⟨_, rfl, .writeReg (by simp [HasDestination])⟩
  | ldVxK x => exact execLdVxK_effect x s
  | addReg | sub | subn | shr | shl => exact ⟨_, rfl, .writeResult (by simp [WritesResultAndFlag])⟩
  | ldI nnn => exact ⟨_, rfl, .setI (setWidth_addr_lt nnn)⟩
  | addI x => exact execAddI_effect x s
  | ldF => exact ⟨_, rfl, .setI (wrapAddr_lt _)⟩
  | ldB => exact ⟨_, rfl, .storeDigits⟩
  | ldMemVx => exact ⟨_, rfl, .storeRegs⟩
  | ldVxMem => exact ⟨_, rfl, .loadRegs⟩
  | jpOff => exact ⟨_, rfl, .movePc (.inr (wrapAddr_lt _))⟩
  | drw => exact ⟨_, rfl, .draw⟩
  | ldDtVx => exact ⟨_, rfl, .setDt⟩
  | ldStVx => exact ⟨_, rfl, .setSt⟩
  | invalid => exact ⟨_, rfl, .idle⟩

/-- The state an instruction answers is one of its effects. -/
theorem effect_of_exec {i : Instr} {s t : State} (h : exec i s = .next t) : Effect s i t := by
  obtain ⟨t', h', heff⟩ := exec_effect i s
  cases h.symm.trans h'
  exact heff

end Sys2Proof.Machine
end

section
/-! The machine's invariant: which setters keep it and under what condition, that every effect of an instruction and
every event keeps it, and that it holds at reset. -/

namespace Sys2Proof.Machine

variable {s t : State}

/-! ## Setters -/

theorem State.Inv.setV (h : s.Inv) (v : Vector Byte 16) : (s.setV v).Inv := { h with }
theorem State.Inv.setDt (h : s.Inv) (b : Byte) : (s.setDt b).Inv := { h with }
theorem State.Inv.setSt (h : s.Inv) (b : Byte) : (s.setSt b).Inv := { h with }
theorem State.Inv.setGrid (h : s.Inv) (g : Grid) : (s.setGrid g).Inv := { h with }
theorem State.Inv.setRun (h : s.Inv) (r : RunState) : (s.setRun r).Inv := { h with }
theorem State.Inv.setKeys (h : s.Inv) (keys : BitVec 16) : (s.setKeys keys).Inv := { h with }
theorem State.Inv.setDraws (h : s.Inv) (draws : Nat) : (s.setDraws draws).Inv := { h with }
theorem State.Inv.setInputs (h : s.Inv) (inputs : List Input) : (s.setInputs inputs).Inv := { h with }

theorem State.Inv.setPc (h : s.Inv) {a : Word} (ha : a.toNat < 4096) : (s.setPc a).Inv := { h with pc_lt := ha }

theorem State.Inv.setI (h : s.Inv) {a : Word} (ha : (s.setI a).IndexInRange) : (s.setI a).Inv :=
  { h with index_lt := ha }

theorem State.Inv.setStack (h : s.Inv) {stack : List Word} (hlt : ∀ w ∈ stack, w.toNat < 4096)
    (hdepth : (s.setStack stack).StackWithinDepth) : (s.setStack stack).Inv :=
  { h with stack_lt := hlt, stack_depth := hdepth }

theorem State.Inv.storeBlock (h : s.Inv) (a : Nat) (bs : List Byte) : (s.storeBlock a bs).Inv := by
  have hwf := s.heap_wf_storeBlock a bs h.heap_wf
  rw [State.storeBlock_eq_setHeap]
  exact { h with heap_wf := hwf }

theorem State.Inv.loadRegs (h : s.Inv) (first : Nat) (bs : List Byte) : (s.loadRegs first bs).Inv := by
  rw [State.loadRegs_eq_setV]
  exact h.setV _

/-! ## Operations -/

theorem State.Inv.advancePc (h : s.Inv) : s.advancePc.Inv := h.setPc (wrapAddr_lt _)

/-- A push where there is room stays within the depth (R62). -/
theorem State.Inv.push (h : s.Inv) (hroom : s.stackFull = false) {w : Word} (hw : w.toNat < 4096) :
    (s.push w).Inv := by
  refine h.setStack (fun u hu => ?_) fun d hd => ?_
  · rcases List.mem_append.mp hu with hu | hu
    · exact h.stack_lt u hu
    · rwa [List.mem_singleton.mp hu]
  · have hlt : ¬ d ≤ s.stack.length := fun hle => by
      simp [s.stackFull_iff.mpr ⟨d, hd, hle⟩] at hroom
    simp only [State.setStack_stack, List.length_append, List.length_singleton]
    omega

/-- Removing the last entry keeps the stack within its depth. -/
theorem State.Inv.setStack_init (h : s.Inv) {rest : List Word} {w : Word} (hs : s.stack = rest ++ [w]) :
    (s.setStack rest).Inv := by
  refine h.setStack (fun u hu => h.stack_lt u (by simp [hs, hu])) fun d hd => ?_
  have hle := h.stack_depth d hd
  simp only [hs, List.length_append] at hle
  simp only [State.setStack_stack]
  omega

/-- In modern mode a block transfer leaves I as it was (R194, R195). -/
theorem State.Inv.setI_advancedIndex (ht : t.Inv) (hs : s.Inv) (hcfg : t.cfg = s.cfg) (x : Nibble) :
    (t.setI (s.advancedIndex x)).Inv := by
  refine ht.setI fun hmodern => ?_
  have hmodern : s.cfg.loadStoreIndexAdvance = false := hcfg ▸ hmodern
  simpa [State.advancedIndex, hmodern] using hs.index_lt hmodern

/-! ## Instructions and events -/

/-- Every effect of an instruction keeps the invariant. -/
theorem Effect.inv {i : Instr} (h : Effect s i t) (hs : s.Inv) : t.Inv := by
  cases h with
  | idle => exact hs
  | movePc ha => exact hs.setPc (ha.elim (fun h => h ▸ hs.pc_lt) id)
  | fatal => exact hs.setRun _
  | call hroom => exact (hs.push hroom hs.pc_lt).setPc (setWidth_addr_lt _)
  | ret hstack => exact (hs.setStack_init hstack).setPc (wrapAddr_lt _)
  | writeReg => exact (hs.setDraws _).setV _
  | writeResult => exact hs.setV _
  | setI ha => exact hs.setI fun _ => ha
  | setIAndFlag _ ha => exact (hs.setI fun _ => ha).setV _
  | storeDigits => exact hs.storeBlock _ _
  | storeRegs => exact (hs.storeBlock _ _).setI_advancedIndex hs (by simp) _
  | loadRegs => exact (hs.loadRegs _ _).setI_advancedIndex hs (by simp) _
  | clear => exact hs.setGrid _
  | draw => exact ((hs.setV _).setGrid _).setV _
  | setDt => exact hs.setDt _
  | setSt => exact hs.setSt _

/-- Every event keeps the invariant. -/
theorem stepEvent_inv {e : Input} (hs : s.Inv) (h : stepEvent e s = .next t) : t.Inv := by
  obtain ⟨-, ⟨-, hexec⟩ | ⟨-, rfl⟩ | ⟨k, -, rfl⟩⟩ := stepEvent_next_cases h
  · exact (effect_of_exec hexec).inv hs.advancePc
  · exact (hs.setDt _).setSt _
  · exact hs.setKeys k

/-- Every step keeps the invariant: it is an event, taken off the list. -/
theorem step_inv (hs : s.Inv) (h : step s = .next t) : t.Inv := stepEvent_inv (hs.setInputs _) h

/-- Settles O48: the invariant is kept by each effect an instruction can have, by a tick and by a key change. -/
theorem everyStepKeepsMachineInvariant : Obligations.EveryStepKeepsMachineInvariant :=
  ⟨fun _ _ => step_inv, fun _ _ _ => stepEvent_inv⟩

/-- Settles O49: the origin is a 12-bit address, and the stack, I and the listed heap are empty or 0. -/
theorem resetHasMachineInvariant : Obligations.ResetHasMachineInvariant := fun cfg =>
  { pc_lt := setWidth_addr_lt cfg.programOrigin
    stack_lt := fun _ hw => (List.not_mem_nil hw).elim
    stack_depth := fun _ _ => Nat.zero_le _
    index_lt := fun _ => Nat.zero_lt_succ 4095
    heap_wf := Memory.wf_reset cfg }

end Sys2Proof.Machine
end

section
/-! What only some instructions write: the configuration (none), the grid, the stack and VF. -/

namespace Sys2Proof.Machine

variable {s t : State} {i : Instr}

/-! ## The configuration (R34, R42) -/

theorem Effect.cfg_eq (h : Effect s i t) : t.cfg = s.cfg := by
  cases h with
  | storeDigits | storeRegs | loadRegs => simp
  | _ => rfl

theorem stepEvent_cfg {e : Input} (h : stepEvent e s = .next t) : t.cfg = s.cfg := by
  obtain ⟨-, ⟨-, hexec⟩ | ⟨-, rfl⟩ | ⟨k, -, rfl⟩⟩ := stepEvent_next_cases h
  · exact (effect_of_exec hexec).cfg_eq
  · rfl
  · rfl

theorem step_cfg (h : step s = .next t) : t.cfg = s.cfg := stepEvent_cfg (s := s.dropInput) h

theorem Reaches.cfg_eq (h : Reaches s t) : t.cfg = s.cfg := by
  induction h with
  | refl => rfl
  | step _ hstep ih => exact (step_cfg hstep).trans ih

/-- Settles O51, by induction on the steps of a reached state and on the events of a driven run. -/
theorem configurationIsFixedForRun : Obligations.ConfigurationIsFixedForRun := fun s =>
  ⟨fun _ => Reaches.cfg_eq, fun env => s.drivenBy_induction env (P := fun t => t.cfg = s.cfg) rfl
    fun _ _ _ ih h => (stepEvent_cfg h).trans ih⟩

/-! ## The grid (R33) -/

theorem Effect.grid_eq_or (h : Effect s i t) : t.grid = s.grid ∨ i = .cls ∨ ∃ x y n, i = .drw x y n := by
  cases h with
  | clear => exact .inr (.inl rfl)
  | draw => exact .inr (.inr ⟨_, _, _, rfl⟩)
  | storeDigits | storeRegs | loadRegs => exact .inl (by simp)
  | _ => exact .inl rfl

/-- Settles O52: every effect but those of CLS and DRW leaves the grid. -/
theorem onlyClsAndDrwWriteGrid : Obligations.OnlyClsAndDrwWriteGrid := fun _ _ _ hexec hne =>
  (effect_of_exec hexec).grid_eq_or.resolve_left hne

/-! ## The stack (R31, R61) -/

theorem Effect.stack_eq_or (h : Effect s i t) :
    t.stack = s.stack ∨ (∃ nnn, i = .call nnn ∧ t.stack = s.stack ++ [s.pc]) ∨
      (i = .ret ∧ ∃ w, s.stack = t.stack ++ [w]) := by
  cases h with
  | call => exact .inr (.inl ⟨_, rfl, rfl⟩)
  | ret hs => exact .inr (.inr ⟨rfl, _, hs⟩)
  | storeDigits | storeRegs | loadRegs => exact .inl (by simp)
  | _ => exact .inl rfl

/-- Settles O54: CALL pushes, RET pops, and every other effect leaves the stack. -/
theorem onlyCallAndRetChangeStack : Obligations.OnlyCallAndRetChangeStack := fun _ _ _ hexec hne =>
  (effect_of_exec hexec).stack_eq_or.resolve_left hne

/-! ## VF (R23) -/

/-- Loading V0..Vx reaches VF only for x = 0xF. -/
theorem State.readV_vf_loadRegs (s : State) {x : Nibble} (hx : x ≠ vf) (a : Nat) :
    (s.loadRegs 0 (s.readBlock a (x.toNat + 1))).readV vf = s.readV vf := by
  have hlt : x.toNat + 1 ≤ vf.toNat := by
    have := x.isLt
    have hne : x.toNat ≠ vf.toNat := fun h => hx (BitVec.eq_of_toNat_eq h)
    simp only [vf, BitVec.toNat_ofNat] at hne ⊢
    omega
  have hlen : (s.readBlock a (x.toNat + 1)).length = x.toNat + 1 := by simp [State.readBlock_eq_map]
  rw [State.readV_loadRegs _ _ _ (by rw [hlen]; have := vf.isLt; omega)]
  exact (if_pos (Nat.zero_le _)).trans (List.getD_eq_default _ _ (by rw [hlen]; exact hlt))

/-- What an effect can do to VF: leave it, write it as a flag, or write it as the destination. -/
theorem Effect.vf_eq_or (h : Effect s i t) :
    t.readV vf = s.readV vf ∨ WritesResultAndFlag i ∨ (∃ x y n, i = .drw x y n) ∨
      (∃ x, i = .addI x ∧ s.cfg.indexOverflowFlag = true) ∨ HasDestination i vf ∨ i = .ldVxMem vf := by
  cases h with
  | @writeReg _ x _ _ hi =>
    by_cases hx : x = vf
    · exact .inr (.inr (.inr (.inr (.inl (hx ▸ hi)))))
    · exact .inl (by simp [State.readV_writeV, Ne.symm hx])
  | writeResult hi => exact .inr (.inl hi)
  | setIAndFlag hcfg => exact .inr (.inr (.inr (.inl ⟨_, rfl, hcfg⟩)))
  | @loadRegs x =>
    by_cases hx : x = vf
    · exact .inr (.inr (.inr (.inr (.inr (hx ▸ rfl)))))
    · exact .inl (s.readV_vf_loadRegs hx _)
  | draw => exact .inr (.inr (.inl ⟨_, _, _, rfl⟩))
  | storeDigits | storeRegs => exact .inl (by simp)
  | _ => exact .inl rfl

/-- Settles O55: an effect that changes VF writes it as a flag or as its destination. -/
theorem onlyListedInstructionsWriteVF : Obligations.OnlyListedInstructionsWriteVF := by
  intro i s t hexec hne
  have hlisted := (effect_of_exec hexec).vf_eq_or.resolve_left hne
  simpa only [WritesResultAndFlag, HasDestination, vf, or_assoc] using hlisted

end Sys2Proof.Machine
end

section
/-! When an event has a next state, what a halted block shows, and what a key change does. -/

namespace Sys2Proof.Machine

variable {s : State}

/-- A halted block takes no step of any kind (R36, R301, log 7). -/
theorem stepEvent_of_halted {r : FatalReason} (h : s.run = .halted r) (e : Input) :
    stepEvent e s = .fault (.halted r) := by
  simp [stepEvent, h]

/-- A running block takes a step on every event (R341). -/
theorem stepEvent_of_running (h : s.run = .running) (e : Input) : ∃ t, stepEvent e s = .next t := by
  simp only [stepEvent, h]
  cases e with
  | step =>
    obtain ⟨t, hexec, -⟩ := exec_effect (decode s.fetchWord) s.advancePc
    exact ⟨t, hexec⟩
  | tick => exact ⟨_, rfl⟩
  | keys k => exact ⟨_, rfl⟩

theorem State.haltedOut_of_halted {r : FatalReason} (h : s.run = .halted r) : s.haltedOut = true := by
  simp [State.haltedOut, h]

theorem State.faultReasonOut_of_halted {r : FatalReason} (h : s.run = .halted r) : s.faultReasonOut = r.code := by
  simp [State.faultReasonOut, h]

/-- The code tells the three reasons apart (R305). -/
theorem FatalReason.code_iff (r : FatalReason) :
    (r.code.toNat = 1 ↔ ∃ a, r = .stackUnderflow a) ∧ (r.code.toNat = 2 ↔ ∃ a nnn, r = .stackOverflow a nnn) ∧
      (r.code.toNat = 3 ↔ ∃ a nnn, r = .sysUnsupported a nnn) := by
  cases r <;> simp [FatalReason.code]

/-- Settles O10: a halted block answers its fault and shows its reason's code; a running block steps on every event. -/
theorem stepStopsExactlyWhenHalted : Obligations.StepStopsExactlyWhenHalted := by
  refine fun s => ⟨fun r h => ?_, fun h => ?_⟩
  · rw [State.faultReasonOut_of_halted h]
    exact ⟨stepEvent_of_halted (s := s.dropInput) h _, stepEvent_of_halted h, State.haltedOut_of_halted h, r.code_iff⟩
  · exact ⟨stepEvent_of_running (s := s.dropInput) h _, stepEvent_of_running h, by simp [State.haltedOut, h],
      by simp [State.faultReasonOut, h]⟩

/-- Settles O12: the step's event is the key change, which writes the level alone. -/
theorem keyChangeSetsOnlyKeypadLevel : Obligations.KeyChangeSetsOnlyKeypadLevel := by
  intro s k hrun hkeys
  refine ⟨s.dropInput.setKeys k, ?_, rfl, rfl, ?_⟩
  · simp [step, stepEvent, hrun, hkeys]
  · simp [SameOutside, State.dropInput_eq_setInputs]

end Sys2Proof.Machine
end

section
/-! The heap right after reset: the font table at `FONT_BASE`, 0 elsewhere. -/

namespace Sys2Proof.Machine

/-- The reset heap lists nothing, so each byte reads as its reset content (log 6). -/
theorem State.readByte_resetWith (cfg : Config) (a : Nat) :
    (State.resetWith cfg).readByte a = unlistedByte cfg (a % 4096) := rfl

/-- Row r of glyph d stands at `FONT_BASE + 5d + r` (R57). -/
theorem unlistedByte_glyph (cfg : Config) {d r : Nat} (hd : d < 16) (hr : r < 5) :
    unlistedByte cfg ((cfg.fontBase.toNat + 5 * d + r) % 4096) = (cfg.fontTable[d])[r] := by
  have hbase := cfg.fontBase.isLt
  have hk : ((cfg.fontBase.toNat + 5 * d + r) % 4096 % 4096 + 4096 - cfg.fontBase.toNat) % 4096 = 5 * d + r := by
    omega
  have hdiv : (5 * d + r) / 5 = d := by omega
  have hmod : (5 * d + r) % 5 = r := by omega
  simp only [unlistedByte, hk, hdiv, hmod, dif_pos (show 5 * d + r < 80 by omega)]

/-- A byte at none of the font's 80 addresses is 0. -/
theorem unlistedByte_outside_font (cfg : Config) {a : Nat} (ha : a < 4096)
    (hfont : ∀ k < 80, a ≠ (cfg.fontBase.toNat + k) % 4096) : unlistedByte cfg a = 0 := by
  have hbase := cfg.fontBase.isLt
  refine dif_neg fun hk => hfont _ hk ?_
  omega

/-- Settles O59: registers, stack and grid by definition, the heap by the two lemmas on its unlisted bytes. -/
theorem resetLeavesListedValues : Obligations.ResetLeavesListedValues := by
  refine ⟨fun cfg => ⟨fun j => ?_, rfl, rfl, rfl, ?_, rfl, Grid.pixel_clear, rfl, rfl, rfl, ?_, ?_⟩, rfl⟩
  · simp [State.readV, State.resetWith]
  · exact BitVec.toNat_setWidth_of_le (by decide)
  · exact fun d hd r hr => unlistedByte_glyph cfg hd hr
  · intro a ha hfont
    rw [State.readByte_resetWith, Nat.mod_eq_of_lt ha]
    exact unlistedByte_outside_font cfg ha hfont

end Sys2Proof.Machine
end

section
/-! The memory: what a fetch reads, what a block store does to a later fetch, which instructions write the heap, and the
heap that boot leaves. -/

namespace Sys2Proof

/-- The byte at the lower address is the high half of the word (R52). -/
theorem wordOfBytes_toNat (hi lo : Byte) : (wordOfBytes hi lo).toNat = hi.toNat * 256 + lo.toNat := by
  rw [wordOfBytes, BitVec.toNat_append, ← Nat.shiftLeft_add_eq_or_of_lt lo.isLt, Nat.shiftLeft_eq]

end Sys2Proof

namespace Sys2Proof.Machine

/-! ## Fetch (R52) -/

section Fetch

variable (s : State)

/-- A heap access reduces its address mod 4096 (R51). -/
theorem State.readByte_congr {a c : Nat} (h : a % 4096 = c % 4096) : s.readByte a = s.readByte c := by
  rw [State.readByte, State.readByte, h]

theorem State.fetchWord_toNat :
    s.fetchWord.toNat = (s.readByte s.pc.toNat).toNat * 256 + (s.readByte (s.pc.toNat + 1)).toNat :=
  wordOfBytes_toNat _ _

theorem State.fetchHalf_zero : s.fetchHalf 0 = (s.readByte s.pc.toNat).toNat := by
  have hlo := (s.readByte (s.pc.toNat + 1)).isLt
  rw [State.fetchHalf, if_pos rfl, s.fetchWord_toNat]
  omega

theorem State.fetchHalf_one : s.fetchHalf 1 = (s.readByte (s.pc.toNat + 1)).toNat := by
  have hlo := (s.readByte (s.pc.toNat + 1)).isLt
  rw [State.fetchHalf, if_neg Nat.one_ne_zero, s.fetchWord_toNat]
  omega

theorem State.fetchHalf_eq {half : Nat} (h : half < 2) : s.fetchHalf half = (s.readByte (s.pc.toNat + half)).toNat := by
  obtain rfl | rfl : half = 0 ∨ half = 1 := by omega
  · exact s.fetchHalf_zero
  · exact s.fetchHalf_one

/-- Settles O9: the word's two bytes, the second address reduced as every heap access reduces it. -/
theorem fetchedWordIsBigEndian : Obligations.FetchedWordIsBigEndian := fun s => by
  rw [s.fetchWord_toNat, s.readByte_congr (Nat.mod_mod (s.pc.toNat + 1) 4096)]

end Fetch

/-! ## Stores over the next instruction (R66, R193, R194) -/

section Stores

variable {s t : State} {bs : List Byte}

@[simp] theorem State.storeBlock_pc (s : State) (a : Nat) (bs : List Byte) : (s.storeBlock a bs).pc = s.pc := by
  rw [State.storeBlock_eq_setHeap, State.setHeap_pc]

/-- A state with the pc of `s` that reads as `s` does after the block's store fetches what the block holds. -/
theorem fetchSeesBlock_of_readByte_eq (hlen : bs.length ≤ 4096) (hpc : t.pc = s.pc)
    (hread : ∀ a, t.readByte a = (s.storeBlock s.i.toNat bs).readByte a) : FetchSeesBlock s t bs := by
  refine ⟨hpc, fun half hhalf => ⟨fun k hk haddr => ?_, fun hout => ?_⟩⟩
  · rw [t.fetchHalf_eq hhalf, hpc, t.readByte_congr haddr, hread, State.readByte_storeBlock_inside _ _ _ _ hk hlen]
  · rw [t.fetchHalf_eq hhalf, s.fetchHalf_eq hhalf, hpc, hread, State.readByte_storeBlock_outside _ _ _ _ hout]

/-- V0..Vx listed by their numbers. -/
theorem State.firstRegs_eq_map (s : State) (x : Nibble) :
    s.firstRegs x = (List.range (x.toNat + 1)).map fun k => s.readV (BitVec.ofNat 4 k) := by
  refine List.ext_getElem (by simp) fun k hk _ => ?_
  rw [State.firstRegs_length] at hk
  have hk4 : (BitVec.ofNat 4 k).toNat = k := Nat.mod_eq_of_lt (by have := x.isLt; omega)
  have hget := s.firstRegs_getElem? x (BitVec.ofNat 4 k) (BitVec.le_def.mpr (by omega))
  rw [hk4] at hget
  simpa [List.getElem?_eq_some_iff, hk] using hget

/-- Settles O38: each of the two stores leaves pc and stores a block of at most 16 bytes at I. -/
theorem storeIsSeenByNextFetch : Obligations.StoreIsSeenByNextFetch := by
  refine fun x s => ⟨⟨_, rfl, ?_⟩, _, rfl, ?_⟩
  · rw [← s.firstRegs_eq_map]
    have hlen : (s.firstRegs x).length ≤ 4096 := by rw [State.firstRegs_length]; have := x.isLt; omega
    exact fetchSeesBlock_of_readByte_eq hlen (s.storeBlock_pc _ _) fun _ => rfl
  · exact fetchSeesBlock_of_readByte_eq (by simp) (s.storeBlock_pc _ _) fun _ => rfl

end Stores

/-! ## Which instructions write the heap (R50, R69) -/

section HeapWrites

variable {s t : State} {i : Instr}

@[simp] theorem State.readByte_loadRegs (s : State) (first : Nat) (bs : List Byte) (a : Nat) :
    (s.loadRegs first bs).readByte a = s.readByte a := by
  rw [State.loadRegs_eq_setV, State.readByte_setV]

theorem Effect.readByte_eq_or (h : Effect s i t) :
    (∀ a, t.readByte a = s.readByte a) ∨ (∃ x, i = .ldB x) ∨ ∃ x, i = .ldMemVx x := by
  cases h with
  | storeDigits => exact .inr (.inl ⟨_, rfl⟩)
  | storeRegs => exact .inr (.inr ⟨_, rfl⟩)
  | loadRegs => exact .inl (by simp)
  | _ => exact .inl fun _ => rfl

/-- Settles O53: every effect but those of LD_B and LD_MEM_VX leaves every byte. -/
theorem onlyStoresWriteHeap : Obligations.OnlyStoresWriteHeap := fun _ _ _ hexec ⟨a, hne⟩ =>
  (effect_of_exec hexec).readByte_eq_or.resolve_left fun hsame => hne (hsame a)

end HeapWrites

/-! ## Boot (R56, R57, R331) -/

section Boot

variable (cfg : Config) (image : List Byte)

/-- The font's bytes in order: byte k is row k % 5 of glyph k / 5. -/
theorem fontBytes_eq_flatten : fontBytes cfg = cfg.fontTable.flatten.toList := by
  rw [Vector.flatten, Vector.toList_mk, Array.toList_flatten, Array.toList_map, List.map_map]
  rfl

theorem fontBytes_length : (fontBytes cfg).length = 80 := by
  rw [fontBytes_eq_flatten, Vector.length_toList]

theorem fontBytes_getElem {k : Nat} (hk : k < (fontBytes cfg).length) :
    (fontBytes cfg)[k] = (cfg.fontTable[k / 5]'(by rw [fontBytes_length] at hk; omega))[k % 5] := by
  simp only [fontBytes_eq_flatten, Vector.getElem_toList, Vector.getElem_flatten]

/-- Loading the font over the reset heap changes no byte: it stands there already (log 6). -/
theorem readByte_load_font (a : Nat) :
    ((State.resetWith cfg).load (fontBytes cfg) cfg.fontBase).readByte a = unlistedByte cfg (a % 4096) := by
  by_cases hfont : ∃ k < (fontBytes cfg).length, a % 4096 = (cfg.fontBase.toNat + k) % 4096
  · obtain ⟨k, hk, haddr⟩ := hfont
    have hk80 : k < 80 := fontBytes_length cfg ▸ hk
    have hglyph := unlistedByte_glyph cfg (d := k / 5) (r := k % 5) (by omega) (Nat.mod_lt _ (by decide))
    rw [Nat.add_assoc, Nat.div_add_mod] at hglyph
    rw [State.readByte_congr _ haddr, State.load, State.readByte_storeBlock_inside _ _ _ _ hk
      (by rw [fontBytes_length]; decide), fontBytes_getElem, haddr, hglyph]
  · push Not at hfont
    rw [State.load, State.readByte_storeBlock_outside _ _ _ _ hfont, State.readByte_resetWith]

/-- A load writes the heap and nothing else. -/
theorem State.load_eq_setHeap (s : State) (bytes : List Byte) (origin : Addr) :
    s.load bytes origin = s.setHeap (s.load bytes origin).heap :=
  s.storeBlock_eq_setHeap _ _

theorem sameOutside_setHeap (s : State) (m : Memory) : SameOutside [.heap] s (s.setHeap m) := by
  simp [SameOutside]

theorem boot_eq_none_iff : boot cfg image = none ↔ image.length > 4096 - cfg.programOrigin.toNat := by
  rw [boot, ite_eq_right_iff]
  simp

variable {cfg image} {s : State}

theorem boot_eq_some_iff : boot cfg image = some s ↔ image.length ≤ 4096 - cfg.programOrigin.toNat ∧
    ((State.resetWith cfg).load (fontBytes cfg) cfg.fontBase).load image cfg.programOrigin = s :=
  Option.ite_none_right_eq_some.trans (by rw [Option.some.injEq])

/-- The state boot leaves is the reset state but for its heap. -/
theorem boot_eq_setHeap (h : boot cfg image = some s) : s = (State.resetWith cfg).setHeap s.heap := by
  obtain ⟨-, rfl⟩ := boot_eq_some_iff.mp h
  rw [State.load_eq_setHeap, State.load_eq_setHeap (State.resetWith cfg)]
  rfl

theorem readByte_boot_image (h : boot cfg image = some s) {j : Nat} (hj : j < image.length) :
    s.readByte (cfg.programOrigin.toNat + j) = image[j] := by
  obtain ⟨hfits, rfl⟩ := boot_eq_some_iff.mp h
  exact State.readByte_storeBlock_inside _ _ _ _ hj (by omega)

/-- A byte that the image does not overlie reads as after reset. -/
theorem readByte_boot_outside_image (h : boot cfg image = some s) {a : Nat} (ha : a < 4096)
    (hout : ∀ j < image.length, a ≠ cfg.programOrigin.toNat + j) : s.readByte a = unlistedByte cfg a := by
  obtain ⟨hfits, rfl⟩ := boot_eq_some_iff.mp h
  rw [State.load, State.readByte_storeBlock_outside _ _ _ _ fun j hj => ?_, readByte_load_font, Nat.mod_eq_of_lt ha]
  have hne := hout j hj
  omega

/-- Settles O58: the image's bytes as stored, every other byte as reset leaves it, which is the font table's byte or 0. -/
theorem bootPlacesFontAndImage : Obligations.BootPlacesFontAndImage := by
  refine fun cfg image => ⟨boot_eq_none_iff cfg image, fun s hs => ?_⟩
  have hheap := boot_eq_setHeap hs
  have hpc : s.pc = cfg.programOrigin.setWidth 16 := congrArg State.pc hheap
  refine ⟨?_, ?_, fun j hj => readByte_boot_image hs hj, fun a ha hout => ?_⟩
  · rw [hpc, BitVec.toNat_setWidth_of_le (by decide)]
  · rw [hheap]
    exact sameOutside_setHeap _ _
  · rw [readByte_boot_outside_image hs ha hout]
    refine ⟨fun d hd r hr haddr => ?_, unlistedByte_outside_font cfg ha⟩
    rw [haddr, unlistedByte_glyph cfg hd hr]

end Boot

end Sys2Proof.Machine
end

section
/-! The encoding: the fields as arithmetic on the word, the words of INVALID, decode and encode as inverses, and the
tag. -/

namespace Sys2Proof

/-! ## Fields of a word (R81, R82) -/

section Fields

variable (w : Word)

/-- A field shifts its position down and masks its width. -/
theorem extractLsb'_toNat_eq_mask (start len : Nat) :
    (w.extractLsb' start len).toNat = (w.toNat >>> start) &&& (2 ^ len - 1) := by
  rw [BitVec.extractLsb'_toNat, Nat.and_two_pow_sub_one_eq_mod]

/-- Settles O6: each field is extracted at its position and width in R81's table. -/
theorem decoderDrivesFieldsAtFixedPositions : Obligations.DecoderDrivesFieldsAtFixedPositions := fun w =>
  ⟨extractLsb'_toNat_eq_mask w 12 4, extractLsb'_toNat_eq_mask w 8 4, extractLsb'_toNat_eq_mask w 4 4,
    extractLsb'_toNat_eq_mask w 0 4, extractLsb'_toNat_eq_mask w 0 8, extractLsb'_toNat_eq_mask w 0 12⟩

theorem fieldF_toNat : (fieldF w).toNat = w.toNat / 4096 := by
  rw [fieldF, BitVec.extractLsb'_toNat, Nat.shiftRight_eq_div_pow]
  exact Nat.mod_eq_of_lt (by have := w.isLt; omega)

theorem fieldN_toNat : (fieldN w).toNat = w.toNat % 16 := BitVec.extractLsb'_toNat ..

theorem fieldKK_toNat : (fieldKK w).toNat = w.toNat % 256 := BitVec.extractLsb'_toNat ..

/-! Each view of R82 covers the word. -/

theorem encodeAddr_fields : encodeAddr (fieldF w) (fieldNNN w) = w :=
  (BitVec.extractLsb'_append_extractLsb'_eq_extractLsb' rfl).trans BitVec.extractLsb'_eq_self

theorem fieldF_append_fieldX : fieldF w ++ fieldX w = w.extractLsb' 8 8 :=
  BitVec.extractLsb'_append_extractLsb'_eq_extractLsb' rfl

theorem encodeByte_fields : encodeByte (fieldF w) (fieldX w) (fieldKK w) = w := by
  rw [encodeByte, fieldF_append_fieldX]
  exact (BitVec.extractLsb'_append_extractLsb'_eq_extractLsb' rfl).trans BitVec.extractLsb'_eq_self

theorem encodePair_fields : encodePair (fieldF w) (fieldX w) (fieldY w) (fieldN w) = w := by
  have hfxy : w.extractLsb' 8 8 ++ fieldY w = w.extractLsb' 4 12 :=
    BitVec.extractLsb'_append_extractLsb'_eq_extractLsb' rfl
  rw [encodePair, fieldF_append_fieldX, hfxy]
  exact (BitVec.extractLsb'_append_extractLsb'_eq_extractLsb' rfl).trans BitVec.extractLsb'_eq_self

variable {w} {f : Nibble}

/-! A word of a family, by the view its pattern takes; a selector is a field whose value is known. -/

theorem encodeAddr_of_family (hf : (fieldF w).toNat = f.toNat) : encodeAddr f (fieldNNN w) = w := by
  rw [← BitVec.eq_of_toNat_eq hf, encodeAddr_fields]

theorem encodeByte_of_family (hf : (fieldF w).toNat = f.toNat) : encodeByte f (fieldX w) (fieldKK w) = w := by
  rw [← BitVec.eq_of_toNat_eq hf, encodeByte_fields]

theorem encodePair_of_family (hf : (fieldF w).toNat = f.toNat) :
    encodePair f (fieldX w) (fieldY w) (fieldN w) = w := by
  rw [← BitVec.eq_of_toNat_eq hf, encodePair_fields]

theorem encodeByte_of_selector {kk : Byte} (hf : (fieldF w).toNat = f.toNat) (hkk : (fieldKK w).toNat = kk.toNat) :
    encodeByte f (fieldX w) kk = w := by
  rw [← BitVec.eq_of_toNat_eq hkk, encodeByte_of_family hf]

theorem encodePair_of_selector {n : Nibble} (hf : (fieldF w).toNat = f.toNat) (hn : (fieldN w).toNat = n.toNat) :
    encodePair f (fieldX w) (fieldY w) n = w := by
  rw [← BitVec.eq_of_toNat_eq hn, encodePair_of_family hf]

end Fields

/-! ## The words of R92 -/

/-- R92's words by their family and selector. -/
theorem invalidWord_iff {w : Word} : invalidWord w = true ↔
    (((fieldF w).toNat = 0x5 ∨ (fieldF w).toNat = 0x9) ∧ (fieldN w).toNat ≠ 0) ∨
    ((fieldF w).toNat = 0x8 ∧ (fieldN w).toNat ∈ [0x8, 0x9, 0xA, 0xB, 0xC, 0xD, 0xF]) ∨
    ((fieldF w).toNat = 0xE ∧ (fieldKK w).toNat ∉ [0x9E, 0xA1]) ∨
    ((fieldF w).toNat = 0xF ∧ (fieldKK w).toNat ∉ [0x07, 0x0A, 0x15, 0x18, 0x1E, 0x29, 0x33, 0x55, 0x65]) := by
  simp only [invalidWord, fieldF, fieldN, fieldKK]
  split <;> simp_all

/-- No other instruction's word is one of R92's. -/
theorem eq_invalid_of_invalidWord_encode {i : Instr} (h : invalidWord (encode i) = true) : i = .invalid (encode i) := by
  cases i with
  | invalid w => rfl
  | cls | ret => cases h
  | _ => simp [invalidWord_iff, encode] at h

/-! ## Every word is the word of the instruction it decodes to (R86 to R93, R96) -/

/-- `i` is an instruction that the decoder can produce, and its word is `w`. -/
def Instr.StandsFor (i : Instr) (w : Word) : Prop := i.WellFormed ∧ encode i = w

theorem wellFormed_sys {nnn : Addr} : (Instr.sys nnn).WellFormed ↔ nnn ≠ 0x0E0 ∧ nnn ≠ 0x0EE := by
  simp [Instr.WellFormed, Instr.wellFormed]

/-- Family 0 by its address (R86). -/
theorem decodeFamily0_encodeAddr (nnn : Addr) : decodeFamily0 (encodeAddr 0x0 nnn) =
    if nnn = 0x0E0 then .cls else if nnn = 0x0EE then .ret else .sys nnn := by
  have hinj (m : Addr) : encodeAddr 0x0 nnn = encodeAddr 0x0 m ↔ nnn = m :=
    ⟨fun h => by simpa using congrArg fieldNNN h, congrArg _⟩
  have hcls : encodeAddr 0x0 nnn = 0x00E0 ↔ nnn = 0x0E0 := hinj 0x0E0
  have hret : encodeAddr 0x0 nnn = 0x00EE ↔ nnn = 0x0EE := hinj 0x0EE
  simp only [decodeFamily0, hcls, hret, fieldNNN_encodeAddr]

section Families

variable {w : Word}

theorem decodeFamily0_standsFor (hf : (fieldF w).toNat = 0x0) : (decodeFamily0 w).StandsFor w := by
  have hw : encodeAddr 0x0 (fieldNNN w) = w := encodeAddr_of_family hf
  rw [← hw, decodeFamily0_encodeAddr]
  split
  · next h => rw [h]; exact ⟨rfl, rfl⟩
  · next hcls =>
    split
    · next h => rw [h]; exact ⟨rfl, rfl⟩
    · next hret => exact ⟨wellFormed_sys.mpr ⟨hcls, hret⟩, rfl⟩

theorem decodeFamily8_standsFor (hf : (fieldF w).toNat = 0x8) : (decodeFamily8 w).StandsFor w := by
  unfold decodeFamily8
  split
  case h_10 =>
    refine ⟨invalidWord_iff.mpr (.inr (.inl ⟨hf, ?_⟩)), rfl⟩
    have hn := (fieldN w).isLt
    simp only [List.mem_cons, List.not_mem_nil]
    simp only [imp_false] at *
    omega
  all_goals exact ⟨rfl, encodePair_of_selector hf ‹_›⟩

theorem decodeFamilyE_standsFor (hf : (fieldF w).toNat = 0xE) : (decodeFamilyE w).StandsFor w := by
  unfold decodeFamilyE
  split
  case h_3 => exact ⟨invalidWord_iff.mpr (.inr (.inr (.inl ⟨hf, by simp_all⟩))), rfl⟩
  all_goals exact ⟨rfl, encodeByte_of_selector hf ‹_›⟩

theorem decodeFamilyF_standsFor (hf : (fieldF w).toNat = 0xF) : (decodeFamilyF w).StandsFor w := by
  unfold decodeFamilyF
  split
  case h_10 => exact ⟨invalidWord_iff.mpr (.inr (.inr (.inr ⟨hf, by simp_all⟩))), rfl⟩
  all_goals exact ⟨rfl, encodeByte_of_selector hf ‹_›⟩

/-- Families 5 and 9 hold one instruction each, at n = 0 (R88). -/
theorem ite_fieldN_standsFor {i : Instr} (hf : (fieldF w).toNat = 0x5 ∨ (fieldF w).toNat = 0x9)
    (hi : (fieldN w).toNat = 0 → i.StandsFor w) : (if fieldN w = 0 then i else .invalid w).StandsFor w := by
  split
  · next hn => exact hi (congrArg BitVec.toNat hn)
  · next hn => exact ⟨invalidWord_iff.mpr (.inl ⟨hf, fun h => hn (BitVec.eq_of_toNat_eq h)⟩), rfl⟩

/-- A case per arm of R93, in its order: arm `h_k` is family k - 1. -/
theorem decode_standsFor (w : Word) : (decode w).StandsFor w := by
  unfold decode
  split
  case h_1 hf => exact decodeFamily0_standsFor hf
  case h_6 hf => exact ite_fieldN_standsFor (.inl hf) fun hn => ⟨rfl, encodePair_of_selector hf hn⟩
  case h_9 hf => exact decodeFamily8_standsFor hf
  case h_10 hf => exact ite_fieldN_standsFor (.inr hf) fun hn => ⟨rfl, encodePair_of_selector hf hn⟩
  case h_2 hf | h_3 hf | h_11 hf | h_12 hf => exact ⟨rfl, encodeAddr_of_family hf⟩
  case h_4 hf | h_5 hf | h_7 hf | h_8 hf | h_13 hf => exact ⟨rfl, encodeByte_of_family hf⟩
  case h_14 hf => exact ⟨rfl, encodePair_of_family hf⟩
  case h_15 hf => exact decodeFamilyE_standsFor hf
  case h_16 =>
    have hlt := (fieldF w).isLt
    simp only [imp_false] at *
    exact decodeFamilyF_standsFor (by omega)

end Families

/-- Settles O2: `decode_standsFor`, a case per arm of the decoder. -/
theorem encodeOfDecodeGivesWord : Obligations.EncodeOfDecodeGivesWord := decode_standsFor

/-- A word decodes to INVALID exactly when it is one of R92's. -/
theorem decode_eq_invalid_iff {w : Word} : decode w = .invalid w ↔ invalidWord w = true := by
  obtain ⟨hwf, hword⟩ := decode_standsFor w
  refine ⟨fun h => ?_, fun h => ?_⟩
  · rwa [h] at hwf
  · have hinvalid := eq_invalid_of_invalidWord_encode (hword.symm ▸ h)
    rwa [hword] at hinvalid

/-- INVALID carries the word that was decoded (R92). -/
theorem eq_of_decode_eq_invalid {w v : Word} (h : decode w = .invalid v) : v = w := by
  obtain ⟨-, hword⟩ := decode_standsFor w
  rwa [h] at hword

/-- Settles O4: the decoder answers INVALID on R92's words, whose family and selector are quotient and remainders. -/
theorem onlyUnmatchedWordsAreInvalid : Obligations.OnlyUnmatchedWordsAreInvalid := by
  refine fun w => ⟨?_, fun v => eq_of_decode_eq_invalid⟩
  rw [decode_eq_invalid_iff, invalidWord_iff, fieldF_toNat, fieldN_toNat, fieldKK_toNat]

/-! ## Every instruction is what its word decodes to (R83, R93) -/

/-- Decoding dispatches on the family and selector that the encoding wrote, and reads back the operands. -/
theorem decode_encode {i : Instr} (h : i.WellFormed) : decode (encode i) = i := by
  cases i with
  | invalid w => exact decode_eq_invalid_iff.mpr h
  | cls | ret => rfl
  | sys nnn =>
    obtain ⟨hcls, hret⟩ := wellFormed_sys.mp h
    have hdec : decodeFamily0 (encodeAddr 0x0 nnn) = .sys nnn := by
      rw [decodeFamily0_encodeAddr, if_neg hcls, if_neg hret]
    simpa [encode, decode] using hdec
  | _ => simp [encode, decode, decodeFamily8, decodeFamilyE, decodeFamilyF]

/-- Settles O1: `decode_encode`, a case per instruction. -/
theorem decodeOfEncodeGivesInstruction : Obligations.DecodeOfEncodeGivesInstruction := fun _ => decode_encode

/-- Settles O3: the decoder run on the six words. -/
theorem literalWordsDecodeAsListed : Obligations.LiteralWordsDecodeAsListed := by
  unfold Obligations.LiteralWordsDecodeAsListed
  decide

/-! ## The tag (R99) -/

theorem decoderPort_tag_encode {i : Instr} (h : i.WellFormed) : (decoderPort (encode i)).tag = i.tag :=
  congrArg Instr.tag (decode_encode h)

theorem Instr.tag_le (i : Instr) : i.tag.toNat ≤ 35 := by
  cases i <;> exact of_decide_eq_true rfl

theorem Instr.tag_eq_zero_iff (i : Instr) : i.tag = 0 ↔ ∃ w, i = .invalid w := by
  cases i <;> simp [Instr.tag]

/-- Settles O5: the decoder gives the encoded instruction back, so the tag is that instruction's number. -/
theorem tagOutputRangesOverVariantNumbers : Obligations.TagOutputRangesOverVariantNumbers := by
  refine ⟨fun x y n kk nnn w => ?_, fun w => ⟨(decode w).tag_le, ?_⟩⟩
  · and_intros
    -- SYS and, once it is closed, INVALID are the two goals that bring their own hypothesis
    on_goal 3 => exact decoderPort_tag_encode
    on_goal 35 => exact decoderPort_tag_encode
    all_goals exact decoderPort_tag_encode rfl
  · refine (decode w).tag_eq_zero_iff.trans ⟨fun ⟨v, hv⟩ => ?_, fun h => ⟨w, h⟩⟩
    rwa [eq_of_decode_eq_invalid hv] at hv

end Sys2Proof
end

section
/-! The assembly line of an instruction is read back as the instruction (R100). -/

namespace Sys2Proof.Machine

/-- The instruction of an assembly line: R100's table read from the line; `none` where no row has that form. -/
def AsmLine.readInstr : AsmLine → Option Instr
  | ⟨"CLS", []⟩ => some .cls
  | ⟨"RET", []⟩ => some .ret
  | ⟨"SYS", [.addr nnn]⟩ => some (.sys nnn)
  | ⟨"JP", [.addr nnn]⟩ => some (.jp nnn)
  | ⟨"CALL", [.addr nnn]⟩ => some (.call nnn)
  | ⟨"SE", [.reg x, .byte kk]⟩ => some (.seImm x kk)
  | ⟨"SNE", [.reg x, .byte kk]⟩ => some (.sneImm x kk)
  | ⟨"SE", [.reg x, .reg y]⟩ => some (.seReg x y)
  | ⟨"LD", [.reg x, .byte kk]⟩ => some (.ldImm x kk)
  | ⟨"ADD", [.reg x, .byte kk]⟩ => some (.addImm x kk)
  | ⟨"LD", [.reg x, .reg y]⟩ => some (.ldReg x y)
  | ⟨"OR", [.reg x, .reg y]⟩ => some (.orReg x y)
  | ⟨"AND", [.reg x, .reg y]⟩ => some (.andReg x y)
  | ⟨"XOR", [.reg x, .reg y]⟩ => some (.xorReg x y)
  | ⟨"ADD", [.reg x, .reg y]⟩ => some (.addReg x y)
  | ⟨"SUB", [.reg x, .reg y]⟩ => some (.sub x y)
  | ⟨"SHR", [.reg x, .reg y]⟩ => some (.shr x y)
  | ⟨"SUBN", [.reg x, .reg y]⟩ => some (.subn x y)
  | ⟨"SHL", [.reg x, .reg y]⟩ => some (.shl x y)
  | ⟨"SNE", [.reg x, .reg y]⟩ => some (.sneReg x y)
  | ⟨"LD", [.i, .addr nnn]⟩ => some (.ldI nnn)
  | ⟨"JP", [.reg 0, .addr nnn]⟩ => some (.jpOff nnn)
  | ⟨"RND", [.reg x, .byte kk]⟩ => some (.rnd x kk)
  | ⟨"DRW", [.reg x, .reg y, .nibble n]⟩ => some (.drw x y n)
  | ⟨"SKP", [.reg x]⟩ => some (.skp x)
  | ⟨"SKNP", [.reg x]⟩ => some (.sknp x)
  | ⟨"LD", [.reg x, .dt]⟩ => some (.ldVxDt x)
  | ⟨"LD", [.reg x, .k]⟩ => some (.ldVxK x)
  | ⟨"LD", [.dt, .reg x]⟩ => some (.ldDtVx x)
  | ⟨"LD", [.st, .reg x]⟩ => some (.ldStVx x)
  | ⟨"ADD", [.i, .reg x]⟩ => some (.addI x)
  | ⟨"LD", [.f, .reg x]⟩ => some (.ldF x)
  | ⟨"LD", [.b, .reg x]⟩ => some (.ldB x)
  | ⟨"LD", [.atI, .reg x]⟩ => some (.ldMemVx x)
  | ⟨"LD", [.reg x, .atI]⟩ => some (.ldVxMem x)
  | ⟨"DW", [.word w]⟩ => some (.invalid w)
  | _ => none

theorem readInstr_assemblyLine (i : Instr) : (assemblyLine i).readInstr = some i := by
  cases i <;> rfl

theorem assemblyLine_injective : Function.Injective assemblyLine := fun i j h => by
  have hread : (assemblyLine i).readInstr = (assemblyLine j).readInstr := congrArg _ h
  simpa only [readInstr_assemblyLine, Option.some.injEq] using hread

/-- Settles O7: R100's table can be read back from the line. -/
theorem assemblyLineDeterminesInstruction : Obligations.AssemblyLineDeterminesInstruction :=
  fun _ _ h => assemblyLine_injective h

end Sys2Proof.Machine
end

section
/-! The word of an instruction as a number: the sum of its digits in place. A claim that writes a word as such a sum
gets its instruction by `decode_ofNat`. -/

namespace Sys2Proof

theorem toNat_append_eq_add {m n : Nat} (hi : BitVec m) (lo : BitVec n) :
    (hi ++ lo).toNat = hi.toNat * 2 ^ n + lo.toNat := by
  rw [BitVec.toNat_append, ← Nat.shiftLeft_add_eq_or_of_lt lo.isLt, Nat.shiftLeft_eq]

theorem encodeAddr_toNat (f : Nibble) (nnn : Addr) : (encodeAddr f nnn).toNat = f.toNat * 4096 + nnn.toNat :=
  toNat_append_eq_add f nnn

theorem encodeByte_toNat (f x : Nibble) (kk : Byte) :
    (encodeByte f x kk).toNat = f.toNat * 4096 + x.toNat * 256 + kk.toNat := by
  rw [encodeByte, toNat_append_eq_add, toNat_append_eq_add]
  omega

/-- The family and the selector first, then the operands. -/
theorem encodePair_toNat (f x y n : Nibble) :
    (encodePair f x y n).toNat = f.toNat * 4096 + n.toNat + x.toNat * 256 + y.toNat * 16 := by
  rw [encodePair, toNat_append_eq_add, toNat_append_eq_add, toNat_append_eq_add]
  omega

/-- A number that is the word of a well-formed instruction decodes to that instruction. -/
theorem decode_ofNat {i : Instr} {n : Nat} (hwf : i.WellFormed) (hn : (encode i).toNat = n) :
    decode (BitVec.ofNat 16 n) = i := by
  rw [← hn, BitVec.ofNat_toNat, BitVec.setWidth_eq, decode_encode hwf]

end Sys2Proof
end

section
/-! Control transfer, skips and no-ops (spec/40): what each instruction answers, by the case its state is in. -/

namespace Sys2Proof.Machine

variable {s : State}

/-! ## What the shared operations change and leave alone -/

theorem sameOutside_setPc (s : State) (a : Word) : SameOutside [.pc] s (s.setPc a) := by
  simp [SameOutside]

theorem sameOutside_setStack_setPc (s : State) (stack : List Word) (a : Word) :
    SameOutside [.pc, .stack] s ((s.setStack stack).setPc a) := by
  simp [SameOutside]

/-- A fatal condition keeps everything but the run state (R301). -/
theorem sameOutside_raiseFatal (s : State) (r : FatalReason) : SameOutside [.run] s (s.raiseFatal r) := by
  simp [SameOutside, State.raiseFatal]

theorem State.fetchAddr_toNat (s : State) : s.fetchAddr.toNat = (s.pc.toNat + 4094) % 4096 := wrapAddr_toNat _

theorem wrapAddr_toNat_of_lt {w : Word} (h : w.toNat < 4096) : wrapAddr w.toNat = w :=
  BitVec.eq_of_toNat_eq ((wrapAddr_toNat _).trans (Nat.mod_eq_of_lt h))

theorem State.pop_of_stack_eq_nil (h : s.stack = []) : s.pop = none := by
  simp [State.pop, h]

theorem State.pop_of_stack_eq_append {rest : List Word} {w : Word} (h : s.stack = rest ++ [w]) :
    s.pop = some (w, s.setStack rest) := by
  simp [State.pop, h]

/-! ## INVALID and SYS (R120, R129) -/

theorem exec_invalid (w : Word) (s : State) : exec (.invalid w) s = .next s := rfl

/-- Settles O14: the decoder answers INVALID on R92's words, and INVALID is a no-op. -/
theorem invalidWordsAreNoOps : Obligations.InvalidWordsAreNoOps :=
  ⟨fun _ => decode_eq_invalid_iff.mpr, exec_invalid⟩

theorem decode_sys {nnn : Addr} (hcls : nnn.toNat ≠ 0x0E0) (hret : nnn.toNat ≠ 0x0EE) :
    decode (BitVec.ofNat 16 nnn.toNat) = .sys nnn := by
  have hwf : (Instr.sys nnn).WellFormed :=
    wellFormed_sys.mpr ⟨ne_of_apply_ne BitVec.toNat hcls, ne_of_apply_ne BitVec.toNat hret⟩
  refine decode_ofNat hwf ((encodeAddr_toNat 0x0 nnn).trans ?_)
  simp

theorem exec_sys_of_nop (nnn : Addr) (h : s.cfg.sysAction = .nop) : exec (.sys nnn) s = .next s := by
  simp [exec, execSys, h]

theorem exec_sys_of_fault (nnn : Addr) (h : s.cfg.sysAction = .fault) :
    exec (.sys nnn) s = .next (s.raiseFatal (.sysUnsupported s.fetchAddr nnn)) := by
  simp [exec, execSys, h]

/-- Settles O13: the configuration chooses between the two meanings. -/
theorem sysIsNoOpOrFatal : Obligations.SysIsNoOpOrFatal := fun nnn =>
  ⟨decode_sys, fun s => ⟨exec_sys_of_nop nnn, fun h =>
    ⟨_, _, exec_sys_of_fault nnn h, s.fetchAddr_toNat, rfl, sameOutside_raiseFatal s _⟩⟩⟩

/-! ## CALL and RET (R121, R123, R130) -/

theorem exec_ret_of_stack_eq_append {rest : List Word} {w : Word} (h : s.stack = rest ++ [w]) :
    exec .ret s = .next ((s.setStack rest).setPc (wrapAddr w.toNat)) := by
  simp [exec, execRet, State.pop_of_stack_eq_append h]

theorem exec_ret_of_stack_eq_nil (h : s.stack = []) :
    exec .ret s = .next (s.raiseFatal (.stackUnderflow s.fetchAddr)) := by
  simp [exec, execRet, State.pop_of_stack_eq_nil h]

/-- Settles O15: the stack has a last entry or none. -/
theorem retPopsReturnAddressOrIsFatal : Obligations.RetPopsReturnAddressOrIsFatal :=
  ⟨decode_encode (i := .ret) rfl, fun s =>
    ⟨fun _ _ h => ⟨_, exec_ret_of_stack_eq_append h, wrapAddr_toNat _, rfl, sameOutside_setStack_setPc s _ _⟩,
      fun h => ⟨_, _, exec_ret_of_stack_eq_nil h, s.fetchAddr_toNat, rfl, sameOutside_raiseFatal s _⟩⟩⟩

theorem exec_call_of_room (nnn : Addr) (h : s.stackFull = false) :
    exec (.call nnn) s = .next ((s.push s.pc).setPc (nnn.setWidth 16)) := by
  simp [exec, execCall, h]

theorem exec_call_of_full (nnn : Addr) (h : s.stackFull = true) :
    exec (.call nnn) s = .next (s.raiseFatal (.stackOverflow s.fetchAddr nnn)) := by
  simp [exec, execCall, h]

theorem State.stackFull_eq_false_of_lt (h : ∀ d, s.cfg.stackDepth = some d → s.stack.length < d) :
    s.stackFull = false :=
  Bool.eq_false_iff.mpr fun hfull =>
    have ⟨d, hd, hle⟩ := s.stackFull_iff.mp hfull
    Nat.not_lt.mpr hle (h d hd)

theorem addr_setWidth_toNat (nnn : Addr) : (nnn.setWidth 16).toNat = nnn.toNat :=
  BitVec.toNat_setWidth_of_le (by decide)

/-- Settles O17: a stack below its depth has room, one at its depth is full. -/
theorem callPushesReturnAddressOrIsFatal : Obligations.CallPushesReturnAddressOrIsFatal := by
  refine fun nnn => ⟨decode_ofNat rfl (encodeAddr_toNat 0x2 nnn), fun s => ⟨fun hroom => ?_, fun d hd hlen => ?_⟩⟩
  · exact ⟨_, exec_call_of_room nnn (State.stackFull_eq_false_of_lt hroom), rfl, addr_setWidth_toNat nnn,
      sameOutside_setStack_setPc s _ _⟩
  · have hfull : s.stackFull = true := s.stackFull_iff.mpr ⟨d, hd, hlen.ge⟩
    exact ⟨_, _, exec_call_of_full nnn hfull, s.fetchAddr_toNat, rfl, sameOutside_raiseFatal s _⟩

/-- A CALL that does not end the run has pushed the advanced pc. -/
theorem stack_of_exec_call {nnn : Addr} {t : State} (h : exec (.call nnn) s = .next t) (hrun : t.run = .running) :
    t.stack = s.stack ++ [s.pc] := by
  cases hfull : s.stackFull with
  | true =>
    cases (exec_call_of_full nnn hfull).symm.trans h
    cases hrun
  | false =>
    cases (exec_call_of_room nnn hfull).symm.trans h
    rfl

/-- Settles O21: RET pops the pc that the CALL pushed, which is a heap address. -/
theorem retResumesAfterCall : Obligations.RetResumesAfterCall := by
  intro nnn s t u hpc hcall hrun hrunning hstack
  have hu : u.stack = s.stack ++ [s.pc] := hstack.trans (stack_of_exec_call hcall (hrun.trans hrunning))
  exact ⟨_, exec_ret_of_stack_eq_append hu, wrapAddr_toNat_of_lt hpc, rfl⟩

/-! ## Jumps (R122, R124) -/

/-- Settles O16: pc takes the 12-bit address as it is. -/
theorem jpSetsProgramCounter : Obligations.JpSetsProgramCounter := fun nnn =>
  ⟨decode_ofNat rfl (encodeAddr_toNat 0x1 nnn), fun s =>
    ⟨_, rfl, addr_setWidth_toNat nnn, sameOutside_setPc s _⟩⟩

/-- The modern offset register is the one of the address's top nibble (R95). -/
theorem offsetField_eq_of_toNat {nnn : Addr} {r : Nibble} (h : r.toNat = nnn.toNat / 256) : offsetField nnn = r := by
  apply BitVec.eq_of_toNat_eq
  rw [offsetField, BitVec.extractLsb'_toNat, Nat.shiftRight_eq_div_pow, h]
  exact Nat.mod_eq_of_lt (h ▸ r.isLt)

/-- Settles O18: the model's offset register is the statement's `r`, and the sum wraps. -/
theorem jpOffAddsOffsetRegister : Obligations.JpOffAddsOffsetRegister := by
  refine fun nnn => ⟨decode_ofNat rfl (encodeAddr_toNat 0xB nnn), fun s r hr => ⟨_, rfl, ?_, sameOutside_setPc s _⟩⟩
  rw [← offsetField_eq_of_toNat hr]
  exact wrapAddr_toNat _

/-! ## Skips (R125 to R128) -/

theorem sameOutside_skipIf (s : State) (c : Bool) : SameOutside [.pc] s (s.skipIf c) := by
  rw [State.skipIf_eq_setPc]
  exact sameOutside_setPc s _

/-- A skip is exactly two bytes, whatever the memory holds. -/
theorem State.skipIf_pc_toNat (s : State) (c : Bool) :
    (s.skipIf c).pc.toNat = if c then (s.pc.toNat + 2) % 4096 else s.pc.toNat := by
  cases c
  · rfl
  · exact wrapAddr_toNat _

theorem State.skipIf_beq_pc_toNat (s : State) (a b : Byte) :
    (s.skipIf (a == b)).pc.toNat = if a.toNat = b.toNat then (s.pc.toNat + 2) % 4096 else s.pc.toNat := by
  simp only [State.skipIf_pc_toNat, beq_iff_eq, BitVec.toNat_inj]

theorem State.skipIf_bne_pc_toNat (s : State) (a b : Byte) :
    (s.skipIf (a != b)).pc.toNat = if a.toNat = b.toNat then s.pc.toNat else (s.pc.toNat + 2) % 4096 := by
  simp only [State.skipIf_pc_toNat, bne_iff_ne, BitVec.toNat_inj, ne_eq, ite_not]

/-- Settles O19: both are skips, on equality with the constant and on its negation. -/
theorem immediateSkipsMovePcOnCondition : Obligations.ImmediateSkipsMovePcOnCondition := fun x kk =>
  ⟨decode_ofNat rfl (encodeByte_toNat 0x3 x kk), decode_ofNat rfl (encodeByte_toNat 0x4 x kk), fun s =>
    ⟨⟨_, rfl, sameOutside_skipIf s _, s.skipIf_beq_pc_toNat _ _⟩,
      ⟨_, rfl, sameOutside_skipIf s _, s.skipIf_bne_pc_toNat _ _⟩⟩⟩

/-- Settles O20: both are skips, on equality of the registers and on its negation. -/
theorem registerSkipsMovePcOnCondition : Obligations.RegisterSkipsMovePcOnCondition := fun x y =>
  ⟨decode_ofNat rfl (encodePair_toNat 0x5 x y 0x0), decode_ofNat rfl (encodePair_toNat 0x9 x y 0x0), fun s =>
    ⟨⟨_, rfl, sameOutside_skipIf s _, s.skipIf_beq_pc_toNat _ _⟩,
      ⟨_, rfl, sameOutside_skipIf s _, s.skipIf_bne_pc_toNat _ _⟩⟩⟩

end Sys2Proof.Machine
end

section
/-! Register loads, arithmetic, bitwise operations, shifts and random (spec/41): an instruction writes one register, or
a result and its flag, and the rest is the arithmetic of bytes. -/

namespace Sys2Proof.Machine

/-! ## What the register writes change and leave alone -/

section RegisterWrites

variable (s : State)

theorem sameOutside_setV (v : Vector Byte 16) : SameOutside [.v] s (s.setV v) := by
  simp [SameOutside]

/-- A random draw uses up the counter's value besides (log 4). -/
theorem sameOutside_countDraw_setV (v : Vector Byte 16) : SameOutside [.v, .draws] s (s.countDraw.setV v) := by
  simp [SameOutside, State.countDraw_eq_setDraws]

theorem State.readV_writeV_of_ne {x j : Nibble} (b : Byte) (h : j ≠ x) : (s.writeV x b).readV j = s.readV j := by
  rw [State.readV_writeV, if_neg h]

/-- What a result and its flag leave: the result, read as `value`, stands in Vx unless x = 0xF; VF holds the flag in
every case (R142); all else is as before. -/
theorem State.writeResultAndFlag_spec {α : Type} (value : Byte → α) (x : Nibble) {b : Byte} {c : Bool} {result : α}
    {flag : Nat} (hresult : value b = result) (hflag : (flagByte c).toNat = flag) :
    SameOutside [.v] s (s.writeResultAndFlag x b c) ∧
      (x ≠ vf → value ((s.writeResultAndFlag x b c).readV x) = result) ∧
      ((s.writeResultAndFlag x b c).readV vf).toNat = flag ∧
      ∀ j, j ≠ x → j ≠ vf → (s.writeResultAndFlag x b c).readV j = s.readV j := by
  refine ⟨sameOutside_setV s _, fun hx => ?_, ?_, fun j hx hf => ?_⟩
  · rw [State.readV_writeResultAndFlag, if_neg hx, if_pos rfl, hresult]
  · rw [State.readV_writeResultAndFlag, if_pos rfl, hflag]
  · rw [State.readV_writeResultAndFlag, if_neg hf, if_neg hx]

end RegisterWrites

/-! ## Results and flags as numbers (R140, R141) -/

section Arithmetic

variable (a b : Byte)

/-- Byte subtraction is integer subtraction mod 256. -/
theorem sub_toNat_emod : ((a - b).toNat : Int) = (a.toNat - b.toNat : Int) % 256 := by
  rw [BitVec.toNat_sub]
  omega

theorem ushiftRight_one_toNat : (a >>> 1).toNat = a.toNat / 2 := by
  rw [BitVec.toNat_ushiftRight, Nat.shiftRight_one]

theorem shiftLeft_one_toNat : (a <<< 1).toNat = a.toNat * 2 % 256 := by
  rw [BitVec.toNat_shiftLeft, Nat.shiftLeft_eq]

theorem flagByte_toNat (c : Bool) : (flagByte c).toNat = c.toNat := by
  cases c <;> rfl

theorem flagByte_decide_toNat (p : Prop) [Decidable p] : (flagByte (decide p)).toNat = if p then 1 else 0 := by
  rw [flagByte_toNat, Bool.toNat, Bool.cond_decide]

theorem flagByte_carryOut_toNat :
    (flagByte (carryOut a b)).toNat = if a.toNat + b.toNat > 255 then 1 else 0 :=
  flagByte_decide_toNat _

theorem flagByte_noBorrow_toNat : (flagByte (noBorrow a b)).toNat = if a.toNat > b.toNat then 1 else 0 :=
  flagByte_decide_toNat _

theorem flagByte_shiftedOutRight_toNat : (flagByte (shiftedOutRight a)).toNat = a.toNat % 2 := by
  rw [flagByte_toNat, shiftedOutRight, BitVec.getLsbD, Nat.toNat_testBit, pow_zero, Nat.div_one]

/-- Bit 7 is the top bit of a byte, so nothing is left above it. -/
theorem flagByte_shiftedOutLeft_toNat : (flagByte (shiftedOutLeft a)).toNat = a.toNat / 128 := by
  have hlt : a.toNat / 128 < 2 := Nat.div_lt_of_lt_mul a.isLt
  rw [flagByte_toNat, shiftedOutLeft, BitVec.getLsbD, Nat.toNat_testBit]
  exact Nat.mod_eq_of_lt hlt

end Arithmetic

/-! ## Loads and ADD_IMM (R150 to R152) -/

/-- Settles O22: both are one register write. -/
theorem loadsWriteOnlyDestination : Obligations.LoadsWriteOnlyDestination :=
  ⟨fun x kk => ⟨decode_ofNat rfl (encodeByte_toNat 0x6 x kk), fun s =>
      ⟨_, rfl, sameOutside_setV s _, s.readV_writeV x kk⟩⟩,
    fun x y => ⟨decode_ofNat rfl (encodePair_toNat 0x8 x y 0x0), fun s =>
      ⟨_, rfl, sameOutside_setV s _, s.readV_writeV x (s.readV y)⟩⟩⟩

/-- Settles O23: one register write of the byte sum, with no flag. -/
theorem addImmWrapsWithoutCarry : Obligations.AddImmWrapsWithoutCarry := by
  refine fun x kk => ⟨decode_ofNat rfl (encodeByte_toNat 0x7 x kk), fun s =>
    ⟨_, rfl, sameOutside_setV s _, ?_, fun _ => s.readV_writeV_of_ne _⟩⟩
  rw [State.readV_writeV_self, BitVec.toNat_add]

/-! ## OR, AND and XOR (R153 to R155) -/

/-- Settles O24: each is one register write of the bitwise combination, with no flag. -/
theorem bitwiseOpsCombineBits : Obligations.BitwiseOpsCombineBits := by
  refine fun x y => ⟨decode_ofNat rfl (encodePair_toNat 0x8 x y 0x1), decode_ofNat rfl (encodePair_toNat 0x8 x y 0x2),
    decode_ofNat rfl (encodePair_toNat 0x8 x y 0x3), fun s =>
    ⟨⟨_, rfl, sameOutside_setV s _, fun _ => s.readV_writeV_of_ne _, fun k => ?_⟩,
      ⟨_, rfl, sameOutside_setV s _, fun _ => s.readV_writeV_of_ne _, fun k => ?_⟩,
      ⟨_, rfl, sameOutside_setV s _, fun _ => s.readV_writeV_of_ne _, fun k => ?_⟩⟩⟩
  · rw [State.readV_writeV_self, BitVec.getLsbD_or]
  · rw [State.readV_writeV_self, BitVec.getLsbD_and]
  · rw [State.readV_writeV_self, BitVec.getLsbD_xor]

/-! ## ADD_REG, SUB and SUBN (R156, R157, R159) -/

/-- Settles O25: the result is the byte sum, the flag compares the exact sum. -/
theorem addRegWrapsAndSetsCarry : Obligations.AddRegWrapsAndSetsCarry := fun x y =>
  ⟨decode_ofNat rfl (encodePair_toNat 0x8 x y 0x4), fun s =>
    ⟨_, rfl, s.writeResultAndFlag_spec BitVec.toNat x (BitVec.toNat_add _ _) (flagByte_carryOut_toNat _ _)⟩⟩

/-- Settles O26: the result is the byte difference, the flag compares the operands. -/
theorem subWrapsAndSetsNoBorrow : Obligations.SubWrapsAndSetsNoBorrow := fun x y =>
  ⟨decode_ofNat rfl (encodePair_toNat 0x8 x y 0x5), fun s =>
    ⟨_, rfl, s.writeResultAndFlag_spec (fun r => (r.toNat : Int)) x (sub_toNat_emod _ _)
      (flagByte_noBorrow_toNat _ _)⟩⟩

/-- Settles O27: as SUB, with the operands exchanged. -/
theorem subnWrapsAndSetsNoBorrow : Obligations.SubnWrapsAndSetsNoBorrow := fun x y =>
  ⟨decode_ofNat rfl (encodePair_toNat 0x8 x y 0x7), fun s =>
    ⟨_, rfl, s.writeResultAndFlag_spec (fun r => (r.toNat : Int)) x (sub_toNat_emod _ _)
      (flagByte_noBorrow_toNat _ _)⟩⟩

/-! ## SHR and SHL (R158, R160) -/

/-- Settles O28: the statement's `a` is the model's shift source. -/
theorem shrHalvesSourceAndKeepsLowBit : Obligations.ShrHalvesSourceAndKeepsLowBit := by
  refine fun x y => ⟨decode_ofNat rfl (encodePair_toNat 0x8 x y 0x6), ?_⟩
  rintro s _ rfl
  exact ⟨_, rfl, s.writeResultAndFlag_spec BitVec.toNat x (ushiftRight_one_toNat _)
    (flagByte_shiftedOutRight_toNat _)⟩

/-- Settles O29: the statement's `a` is the model's shift source. -/
theorem shlDoublesSourceAndKeepsHighBit : Obligations.ShlDoublesSourceAndKeepsHighBit := by
  refine fun x y => ⟨decode_ofNat rfl (encodePair_toNat 0x8 x y 0xE), ?_⟩
  rintro s _ rfl
  exact ⟨_, rfl, s.writeResultAndFlag_spec BitVec.toNat x (shiftLeft_one_toNat _)
    (flagByte_shiftedOutLeft_toNat _)⟩

/-! ## RND (R161) -/

/-- Settles O30: a draw, then one register write of the masked byte, whatever the byte is. -/
theorem rndMasksFreeByte : Obligations.RndMasksFreeByte := by
  refine fun x kk => ⟨decode_ofNat rfl (encodeByte_toNat 0xC x kk), fun s =>
    ⟨_, rfl, sameOutside_countDraw_setV s _, fun k => ?_, rfl, fun _ => s.countDraw.readV_writeV_of_ne _⟩⟩
  rw [State.readV_writeV_self, BitVec.getLsbD_and, State.rand]

end Sys2Proof.Machine
end

section
/-! Index register and memory transfer (spec/42): what the two block transfers move, and what each instruction answers. -/

namespace Sys2Proof

/-- The family and the selector byte first, then the register: how the claims write a word of family F. -/
theorem encodeByte_toNat_selector_first (f x : Nibble) (kk : Byte) :
    (encodeByte f x kk).toNat = f.toNat * 4096 + kk.toNat + x.toNat * 256 :=
  (encodeByte_toNat f x kk).trans (Nat.add_right_comm ..)

end Sys2Proof

namespace Sys2Proof.Machine

/-! ## What writes of I, the registers and the heap change and leave alone -/

section Frames

variable (s : State) (a : Word)

theorem sameOutside_setI : SameOutside [.i] s (s.setI a) := by
  simp [SameOutside]

theorem sameOutside_setV_setI (v : Vector Byte 16) : SameOutside [.v, .i] s ((s.setV v).setI a) := by
  simp [SameOutside]

theorem sameOutside_setHeap_setI (m : Memory) : SameOutside [.heap, .i] s ((s.setHeap m).setI a) := by
  simp [SameOutside]

end Frames

/-! ## What the block transfers move -/

/-- A number that a byte reaches is held in a byte as it is. -/
theorem ofNat_toNat_of_le_byte {b : Byte} {n : Nat} (h : n ≤ b.toNat) : (BitVec.ofNat 8 n).toNat = n :=
  Nat.mod_eq_of_lt (h.trans_lt b.isLt)

/-- Each of the three digits fits in a byte (R193). -/
theorem map_toNat_decimalDigits (b : Byte) :
    (decimalDigits b).map BitVec.toNat = [b.toNat / 100, b.toNat / 10 % 10, b.toNat % 10] := by
  have hhundreds : (BitVec.ofNat 8 (b.toNat / 100)).toNat = b.toNat / 100 :=
    ofNat_toNat_of_le_byte (Nat.div_le_self _ _)
  have htens : (BitVec.ofNat 8 (b.toNat / 10 % 10)).toNat = b.toNat / 10 % 10 :=
    ofNat_toNat_of_le_byte ((Nat.mod_le _ _).trans (Nat.div_le_self _ _))
  have hunits : (BitVec.ofNat 8 (b.toNat % 10)).toNat = b.toNat % 10 := ofNat_toNat_of_le_byte (Nat.mod_le _ _)
  rw [decimalDigits, List.map_cons, List.map_cons, List.map_singleton, hhundreds, htens, hunits]

section Blocks

variable (s : State)

/-- After storing the digits from `a` on, the byte at `a + k` is digit k, hundreds first (R193). -/
theorem State.readByte_storeBlock_decimalDigits (a : Nat) (b : Byte) {k : Nat} (hk : k < 3) :
    ((s.storeBlock a (decimalDigits b)).readByte (a + k)).toNat =
      [b.toNat / 100, b.toNat / 10 % 10, b.toNat % 10][k] := by
  have hread : (s.storeBlock a (decimalDigits b)).readByte (a + k) = (decimalDigits b)[k] :=
    s.readByte_storeBlock_inside a (decimalDigits b) k hk (show 3 ≤ 4096 by decide)
  simp only [hread, ← map_toNat_decimalDigits]
  exact (List.getElem_map _).symm

theorem State.firstRegs_getElem (x k : Nibble) (h : k.toNat < (s.firstRegs x).length) :
    (s.firstRegs x)[k.toNat] = s.readV k := by
  simp only [State.firstRegs_eq_map, List.getElem_map, List.getElem_range, BitVec.ofNat_toNat, BitVec.setWidth_eq]

/-- After storing V0..Vx from `a` on, the byte at `a + k` is Vk (R194). -/
theorem State.readByte_storeBlock_firstRegs (a : Nat) {x k : Nibble} (hk : k.toNat ≤ x.toNat) :
    (s.storeBlock a (s.firstRegs x)).readByte (a + k.toNat) = s.readV k := by
  have hlen : (s.firstRegs x).length = x.toNat + 1 := s.firstRegs_length x
  have hx := x.isLt
  rw [State.readByte_storeBlock_inside _ _ _ _ (by omega) (by omega), State.firstRegs_getElem]

/-- After loading V0..Vx from `a` on, each of them is the byte at its place, and the others are as before (R195). -/
theorem State.readV_loadRegs_readBlock (a : Nat) (x k : Nibble) :
    (s.loadRegs 0 (s.readBlock a (x.toNat + 1))).readV k =
      if k.toNat ≤ x.toNat then s.readByte (a + k.toNat) else s.readV k := by
  have hlen : (s.readBlock a (x.toNat + 1)).length = x.toNat + 1 := by simp [State.readBlock_eq_map]
  have hx := x.isLt
  rw [State.readV_loadRegs _ _ _ (by omega), if_pos (Nat.zero_le _), Nat.sub_zero]
  split
  · next hk =>
    rw [List.getD_eq_getElem _ _ (by omega)]
    simp only [State.readBlock_eq_map, List.getElem_map, List.getElem_range]
  · next hk => exact List.getD_eq_default _ _ (by omega)

/-- The three settings of the index advance as numbers (R194, R195). -/
theorem State.advancedIndex_toNat (x : Nibble) :
    (s.advancedIndex x).toNat = if s.cfg.loadStoreIndexAdvance then
        (s.i.toNat + x.toNat + 1 - (if s.cfg.legacyAdvanceMinusOne then 1 else 0)) % 65536
      else s.i.toNat := by
  rw [State.advancedIndex, apply_ite BitVec.toNat, BitVec.toNat_ofNat]
  cases s.cfg.legacyAdvanceMinusOne <;> rfl

end Blocks

/-! ## LD_I, ADD_I and LD_F (R190 to R192) -/

/-- Settles O31: I takes the 12-bit address as it is. -/
theorem ldISetsIndex : Obligations.LdISetsIndex := fun nnn =>
  ⟨decode_ofNat rfl (encodeAddr_toNat 0xA nnn), fun s => ⟨_, rfl, addr_setWidth_toNat nnn, sameOutside_setI s _⟩⟩

section AddI

variable {s : State} (x : Nibble)

theorem exec_addI_of_flag_disabled (h : s.cfg.indexOverflowFlag = false) :
    exec (.addI x) s = .next (s.setI (wrapAddr (s.i.toNat + (s.readV x).toNat))) := by
  simp [exec, execAddI, h]

theorem exec_addI_of_flag_enabled (h : s.cfg.indexOverflowFlag = true) :
    exec (.addI x) s = .next
      ((s.setI (wrapAddr (s.i.toNat + (s.readV x).toNat))).writeFlag (indexOverflow s.i (s.readV x))) := by
  simp [exec, execAddI, h]

end AddI

/-- Settles O32: I is reduced in both configurations, and only one of them writes the flag. -/
theorem addIReducesIndexAndFlagsByConfiguration : Obligations.AddIReducesIndexAndFlagsByConfiguration := by
  refine fun x => ⟨decode_ofNat rfl (encodeByte_toNat_selector_first 0xF x 0x1E), fun s => ?_⟩
  cases hflag : s.cfg.indexOverflowFlag with
  | false =>
    exact ⟨_, exec_addI_of_flag_disabled x hflag, sameOutside_setV_setI s _ s.v, wrapAddr_toNat _, fun _ _ => rfl,
      fun _ => rfl, nofun⟩
  | true =>
    refine ⟨_, exec_addI_of_flag_enabled x hflag, sameOutside_setV_setI s _ _, wrapAddr_toNat _,
      fun j hj => State.readV_writeV_of_ne _ _ hj, nofun, fun _ => ?_⟩
    exact (congrArg BitVec.toNat (State.readV_writeV_self _ _ _)).trans (flagByte_decide_toNat _)

/-- Settles O33: the glyph's address, the low nibble being the remainder by 16. -/
theorem ldFPointsAtGlyph : Obligations.LdFPointsAtGlyph := by
  refine fun x => ⟨decode_ofNat rfl (encodeByte_toNat_selector_first 0xF x 0x29), fun s =>
    ⟨_, rfl, sameOutside_setI s _, ?_⟩⟩
  rw [Nat.and_two_pow_sub_one_eq_mod _ 4]
  exact wrapAddr_toNat _

/-! ## LD_B (R193) -/

/-- Settles O34: a block store of the three digits. -/
theorem ldBStoresDecimalDigits : Obligations.LdBStoresDecimalDigits := by
  refine fun x => ⟨decode_ofNat rfl (encodeByte_toNat_selector_first 0xF x 0x33), fun s => ?_⟩
  have hdigit {k : Nat} (hk : k < 3) := s.readByte_storeBlock_decimalDigits s.i.toNat (s.readV x) hk
  refine ⟨_, rfl, ?_, hdigit (k := 0) (by decide), hdigit (k := 1) (by decide), hdigit (k := 2) (by decide),
    fun a => s.readByte_storeBlock_outside _ (decimalDigits (s.readV x)) a⟩
  rw [State.storeBlock_eq_setHeap]
  exact sameOutside_setHeap s _

/-! ## LD_MEM_VX and LD_VX_MEM (R194 to R196) -/

/-- Settles O35: a block store of V0..Vx, then the write of I. -/
theorem ldMemVxStoresRegisterBlock : Obligations.LdMemVxStoresRegisterBlock := by
  refine fun x => ⟨decode_ofNat rfl (encodeByte_toNat_selector_first 0xF x 0x55), fun s =>
    ⟨_, rfl, ?_, fun k hk => s.readByte_storeBlock_firstRegs _ hk, fun a hout => ?_, s.advancedIndex_toNat x⟩⟩
  · rw [State.storeBlock_eq_setHeap]
    exact sameOutside_setHeap_setI s _ _
  · refine s.readByte_storeBlock_outside _ _ a fun k hk => hout k ?_
    rw [State.firstRegs_length] at hk
    exact Nat.le_of_lt_succ hk

/-- Settles O36: a block load of V0..Vx, then the write of I. -/
theorem ldVxMemLoadsRegisterBlock : Obligations.LdVxMemLoadsRegisterBlock := by
  refine fun x => ⟨decode_ofNat rfl (encodeByte_toNat_selector_first 0xF x 0x65), fun s =>
    ⟨_, rfl, ?_, s.readV_loadRegs_readBlock _ x, s.advancedIndex_toNat x⟩⟩
  rw [State.loadRegs_eq_setV]
  exact sameOutside_setV_setI s _ _

/-- Settles O37: Vk is loaded from the byte that the store wrote it to. -/
theorem storedBlockLoadsBack : Obligations.StoredBlockLoadsBack := by
  intro x s t u hstore hi hsame
  obtain rfl := Host.Outcome.next.inj hstore
  refine ⟨_, rfl, fun k hk => ?_⟩
  rw [State.readV_setI, State.readV_loadRegs_readBlock, if_pos hk, hi, hsame _ hk, State.readByte_setI,
    State.readByte_storeBlock_firstRegs _ _ hk]

end Sys2Proof.Machine
end

section
/-! Display (spec/43): drawing is XOR with a mask of pixels. Masks that share no pixel compose, so the rows of a sprite
make one mask, and that mask is the one the claims name. -/

namespace Sys2Proof

/-- The digits in the order they stand in the word: how the claims write a word whose last digit is an operand. -/
theorem encodePair_toNat_digits_in_order (f x y n : Nibble) :
    (encodePair f x y n).toNat = f.toNat * 4096 + x.toNat * 256 + y.toNat * 16 + n.toNat := by
  rw [encodePair_toNat]
  omega

end Sys2Proof

namespace Sys2Proof.Machine

/-! ## Drawing a mask -/

/-- `k'` is `k` after the pixels of `m` were drawn on it: each is toggled, and a set one among them is a collision
(R223, R227). -/
structure Canvas.Draws (m : Fin 64 → Fin 32 → Bool) (k k' : Canvas) : Prop where
  pixel (c : Fin 64) (r : Fin 32) : k'.grid.pixel c r = (k.grid.pixel c r ^^ m c r)
  hit : k'.hit = true ↔ k.hit = true ∨ ∃ c r, m c r = true ∧ k.grid.pixel c r = true

section Masks

variable {m m₁ m₂ : Fin 64 → Fin 32 → Bool} {k k₁ k₂ : Canvas}

theorem Canvas.draws_nothing (h : ∀ c r, m c r = false) : k.Draws m k where
  pixel c r := by rw [h, Bool.xor_false]
  hit := by simp [h]

/-- The second mask meets the pixels it would have met without the first, since the first toggled none of them. -/
theorem Canvas.Draws.trans (h₁ : k.Draws m₁ k₁) (h₂ : k₁.Draws m₂ k₂)
    (hdisjoint : ∀ c r, m₁ c r = true → m₂ c r = false) : k.Draws (fun c r => m₁ c r || m₂ c r) k₂ where
  pixel c r := by
    rw [h₂.pixel, h₁.pixel, Bool.xor_assoc]
    cases hm : m₁ c r with
    | false => rw [Bool.false_xor, Bool.false_or]
    | true => rw [hdisjoint c r hm, Bool.xor_false, Bool.or_false]
  hit := by
    have hkept {c r} (hm : m₂ c r = true) : k₁.grid.pixel c r = k.grid.pixel c r := by
      have hclear : m₁ c r = false := Bool.eq_false_iff.mpr fun hm₁ => by simp [hdisjoint c r hm₁] at hm
      rw [h₁.pixel, hclear, Bool.xor_false]
    have hsecond : (∃ c r, m₂ c r = true ∧ k₁.grid.pixel c r = true) ↔
        ∃ c r, m₂ c r = true ∧ k.grid.pixel c r = true :=
      exists_congr fun c => exists_congr fun r => and_congr_right fun hm => by rw [hkept hm]
    simp only [h₂.hit, h₁.hit, hsecond, Bool.or_eq_true, or_and_right, exists_or, or_assoc]

end Masks

/-! ## The masks of a row byte and of a list of rows -/

/-- A row byte drawn at column `cx` has a set bit at column `c`: bit 7 is leftmost, columns wrap (R224, R225). -/
def byteCovers (cx : Nat) (b : Byte) (c : Fin 64) : Bool :=
  decide ((c.val + 64 - cx % 64) % 64 < 8) && b.getLsbD (7 - (c.val + 64 - cx % 64) % 64)

/-- Rows drawn at column `cx`, the first of them at row index `py`, have a set bit at column `c`, row `r`; `py` counts
on past the bottom edge (R226). -/
def rowsCover (wrapY : Bool) (cx py : Nat) (rows : List Byte) (c : Fin 64) (r : Fin 32) : Bool :=
  (wrapY || decide (py ≤ r.val)) && byteCovers cx (rows.getD ((r.val + 32 - py % 32) % 32) 0) c

theorem spriteCovers_eq_rowsCover (wrapY : Bool) (vx vy : Byte) (rows : List Byte) :
    spriteCovers wrapY vx vy rows = rowsCover wrapY (vx.toNat % 64) (vy.toNat % 32) rows := by
  funext c r
  simp only [spriteCovers, rowsCover, byteCovers, Nat.mod_mod, Bool.and_left_comm, Bool.and_assoc]

@[simp] theorem byteCovers_zero (cx : Nat) (c : Fin 64) : byteCovers cx 0 c = false := by
  simp [byteCovers]

section Rows

variable {wrapY : Bool} {cx py : Nat} {b : Byte} {rows : List Byte} {c : Fin 64} {r : Fin 32}

/-- Below the last row nothing is drawn. -/
theorem rowsCover_of_length_le (h : rows.length ≤ (r.val + 32 - py % 32) % 32) :
    rowsCover wrapY cx py rows c r = false := by
  rw [rowsCover, List.getD_eq_default _ _ h, byteCovers_zero, Bool.and_false]

/-- With clipping nothing is drawn above the first row. -/
theorem rowsCover_of_lt (h : r.val < py) : rowsCover false cx py rows c r = false := by
  simp [rowsCover, h]

/-- Fewer than 32 further rows do not come round to the row before them. -/
theorem rowsCover_succ_of_spriteRow (hlen : rows.length < 32) (hr : spriteRow wrapY py = some r) :
    rowsCover wrapY cx (py + 1) rows c r = false := by
  obtain ⟨hrow, -⟩ := (spriteRow_eq_some_iff ..).mp hr
  exact rowsCover_of_length_le (by omega)

/-- The first row byte stands on its own row, and the others from the next row index on. -/
theorem rowsCover_cons (hlen : rows.length < 32) :
    rowsCover wrapY cx py (b :: rows) c r =
      (decide (spriteRow wrapY py = some r) && byteCovers cx b c || rowsCover wrapY cx (py + 1) rows c r) := by
  have hr := r.isLt
  by_cases hrow : r.val = py % 32
  · have hzero : (r.val + 32 - py % 32) % 32 = 0 := by omega
    have hrest : rowsCover wrapY cx (py + 1) rows c r = false := rowsCover_of_length_le (by omega)
    have hdrawn : (wrapY || decide (py ≤ r.val)) = decide (spriteRow wrapY py = some r) := by
      have : py ≤ r.val ↔ py < 32 := by omega
      simp [spriteRow_eq_some_iff, ← hrow, this]
    rw [hrest, Bool.or_false, rowsCover, hzero, List.getD_cons_zero, hdrawn]
  · have hsucc : (r.val + 32 - py % 32) % 32 = (r.val + 32 - (py + 1) % 32) % 32 + 1 := by omega
    have hdrawn : py ≤ r.val ↔ py + 1 ≤ r.val := by omega
    have hnot : spriteRow wrapY py ≠ some r := fun h => hrow ((spriteRow_eq_some_iff ..).mp h).1
    rw [decide_eq_false hnot, Bool.false_and, Bool.false_or, rowsCover, rowsCover, hsucc, List.getD_cons_succ]
    simp only [hdrawn]

end Rows

/-! ## What the rasterizer draws -/

theorem Canvas.draws_drawColumns (k : Canvas) (cx : Nat) (r : Fin 32) (b : Byte) :
    k.Draws (fun c r' => decide (r = r') && byteCovers cx b c) (k.drawColumns cx r b 0 8) where
  pixel c r' := by
    rw [Canvas.pixel_drawColumns _ _ _ _ _ _ (le_refl 8)]
    simp [byteCovers, Bool.and_assoc, eq_comm]
  hit := by
    rw [Canvas.hit_drawColumns _ _ _ _ _ _ (le_refl 8)]
    refine or_congr_right ⟨?_, ?_⟩
    · rintro ⟨j, -, hj, hbit, hpixel⟩
      have hoffset := (spriteColumn_eq_iff (cx := cx) (show j < 8 by omega) _).mp rfl
      refine ⟨spriteColumn cx j, r, ?_, hpixel⟩
      rw [byteCovers, hoffset, hbit]
      simpa using hj
    · rintro ⟨c, r', hcovers, hpixel⟩
      obtain ⟨rfl, hlt, hbit⟩ : r = r' ∧ _ < 8 ∧ _ := by simpa [byteCovers] using hcovers
      refine ⟨_, Nat.zero_le _, by omega, hbit, ?_⟩
      rwa [← (spriteColumn_eq_iff hlt c).mpr rfl]

/-- At most 32 rows stand on different rows of the grid, so their masks share no pixel. -/
theorem Canvas.draws_drawRows (wrapY : Bool) (cx : Nat) (rows : List Byte) (hlen : rows.length ≤ 32) (k : Canvas)
    (py : Nat) : k.Draws (rowsCover wrapY cx py rows) (k.drawRows wrapY cx py rows) := by
  induction rows generalizing k py with
  | nil => exact Canvas.draws_nothing fun c r => rowsCover_of_length_le (Nat.zero_le _)
  | cons b rows ih =>
    have hrest : rows.length < 32 := hlen
    have hmask : rowsCover wrapY cx py (b :: rows) = _ := funext₂ fun c r => rowsCover_cons hrest
    rw [hmask, Canvas.drawRows]
    cases hrow : spriteRow wrapY py with
    | none => simpa using ih hrest.le k (py + 1)
    | some r =>
      simp only [Option.some.injEq]
      refine (k.draws_drawColumns cx r b).trans (ih hrest.le _ (py + 1)) fun c r' hcovers => ?_
      obtain ⟨rfl, -⟩ : r = r' ∧ _ := by simpa using hcovers
      exact rowsCover_succ_of_spriteRow hrest hrow

/-! ## What DRW answers -/

section Draw

variable (s : State) (x y n : Nibble)

/-- The grid and the collision result of a DRW in `s`. -/
def State.drawCanvas : Canvas :=
  s.grid.drawSprite s.cfg.spriteWrapY (s.readV x) (s.readV y) (s.readBlock s.i.toNat n.toNat)

/-- The state after a DRW in `s`. -/
def State.draw : State :=
  ((s.writeFlag false).setGrid (s.drawCanvas x y n).grid).writeFlag (s.drawCanvas x y n).hit

theorem exec_drw : exec (.drw x y n) s = .next (s.draw x y n) := rfl

theorem State.draws_drawCanvas :
    Canvas.Draws (s.drawCovers x y n) { grid := s.grid, hit := false } (s.drawCanvas x y n) := by
  have hlen : (s.readBlock s.i.toNat n.toNat).length ≤ 32 := by
    have hn := n.isLt
    simp only [State.readBlock_eq_map, List.length_map, List.length_range]
    omega
  have hmask : s.drawCovers x y n = rowsCover s.cfg.spriteWrapY ((s.readV x).toNat % 64) ((s.readV y).toNat % 32)
      (s.readBlock s.i.toNat n.toNat) := by
    funext c r
    rw [State.drawCovers, spriteCovers_eq_rowsCover, State.readBlock_eq_map]
  rw [hmask]
  exact Canvas.draws_drawRows _ _ _ hlen _ _

theorem State.pixel_draw (c : Fin 64) (r : Fin 32) :
    (s.draw x y n).grid.pixel c r = (s.grid.pixel c r ^^ s.drawCovers x y n c r) :=
  (s.draws_drawCanvas x y n).pixel c r

theorem State.hit_drawCanvas :
    (s.drawCanvas x y n).hit = true ↔ ∃ c r, s.drawCovers x y n c r = true ∧ s.grid.pixel c r = true := by
  simpa using (s.draws_drawCanvas x y n).hit

theorem State.readV_draw_vf : (s.draw x y n).readV vf = flagByte (s.drawCanvas x y n).hit :=
  State.readV_writeV_self _ _ _

theorem flagByte_eq_one_iff (c : Bool) : flagByte c = 1 ↔ c = true := by
  cases c <;> decide

theorem flagByte_eq_zero_iff (c : Bool) : flagByte c = 0 ↔ c = false := by
  cases c <;> decide

theorem State.readV_draw_vf_eq_one_iff : (s.draw x y n).readV vf = 1 ↔
    ∃ c r, s.drawCovers x y n c r = true ∧ s.grid.pixel c r = true := by
  rw [State.readV_draw_vf, flagByte_eq_one_iff, State.hit_drawCanvas]

theorem State.readV_draw_vf_eq_zero_iff : (s.draw x y n).readV vf = 0 ↔
    ∀ c r, s.drawCovers x y n c r = true → s.grid.pixel c r = false := by
  rw [State.readV_draw_vf, flagByte_eq_zero_iff, ← Bool.not_eq_true, State.hit_drawCanvas]
  simp only [not_exists, not_and, Bool.not_eq_true]

theorem State.readV_draw_of_ne {j : Nibble} (h : j ≠ vf) : (s.draw x y n).readV j = s.readV j :=
  (State.readV_writeV_of_ne _ _ h).trans (s.readV_writeV_of_ne _ h)

theorem sameOutside_setGrid (g : Grid) : SameOutside [.grid] s (s.setGrid g) := by
  simp [SameOutside]

theorem sameOutside_setV_setGrid (v : Vector Byte 16) (g : Grid) :
    SameOutside [.v, .grid] s ((s.setV v).setGrid g) := by
  simp [SameOutside]

theorem sameOutside_draw : SameOutside [.v, .grid] s (s.draw x y n) :=
  sameOutside_setV_setGrid s _ _

/-- Once the registers are restored, a second DRW draws the same sprite at the same position. -/
theorem State.drawCovers_draw_setV : ((s.draw x y n).setV s.v).drawCovers x y n = s.drawCovers x y n := rfl

end Draw

/-! ## The claims -/

/-- Settles O39: one write of the clear grid. -/
theorem clsClearsEveryPixel : Obligations.ClsClearsEveryPixel :=
  ⟨decode_encode (i := .cls) rfl, fun s => ⟨_, rfl, Grid.pixel_clear, sameOutside_setGrid s _⟩⟩

/-- Settles O40: DRW draws the sprite's mask on the grid, and VF is the collision result. -/
theorem drwXorsSpriteAndFlagsCollision : Obligations.DrwXorsSpriteAndFlagsCollision := fun x y n =>
  ⟨decode_ofNat rfl (encodePair_toNat_digits_in_order 0xD x y n), fun s =>
    ⟨_, exec_drw s x y n, sameOutside_draw s x y n, s.pixel_draw x y n, (s.readV_draw_vf_eq_one_iff x y n).mpr,
      (s.readV_draw_vf_eq_zero_iff x y n).mpr, fun _ => s.readV_draw_of_ne x y n⟩⟩

/-- Settles O41: a mask drawn twice cancels, and the second draw meets the mask's pixels toggled by the first. -/
theorem drawingTwiceRestoresGrid : Obligations.DrawingTwiceRestoresGrid := by
  intro x y n s t u hfirst hsecond
  obtain rfl := Host.Outcome.next.inj ((exec_drw ..).symm.trans hfirst)
  obtain rfl := Host.Outcome.next.inj ((exec_drw ..).symm.trans hsecond)
  refine ⟨fun c r => ?_, ?_, fun hclear => ?_⟩
  · calc _ = ((s.grid.pixel c r ^^ s.drawCovers x y n c r) ^^ s.drawCovers x y n c r) := by
          rw [← State.pixel_draw]
          exact State.pixel_draw _ x y n c r
      _ = s.grid.pixel c r := by rw [Bool.xor_assoc, Bool.xor_self, Bool.xor_false]
  · refine (State.readV_draw_vf_eq_one_iff _ x y n).trans ?_
    refine exists_congr fun c => exists_congr fun r => and_congr_right fun hcovers => ?_
    rw [State.drawCovers_draw_setV] at hcovers
    rw [State.setV_grid, State.pixel_draw, hcovers, Bool.xor_true, Bool.not_eq_true']
  · exact (s.readV_draw_vf_eq_zero_iff x y n).mpr fun c r _ => hclear c r

/-- Settles O42: with clipping the sprite's mask is empty outside those rows. -/
theorem clippedSpriteStaysInItsRows : Obligations.ClippedSpriteStaysInItsRows := by
  refine fun x y n s hclip => ⟨_, exec_drw s x y n, fun c r hout => ?_⟩
  have huncovered : s.drawCovers x y n c r = false := by
    rw [State.drawCovers, hclip, spriteCovers_eq_rowsCover]
    rcases hout with habove | hbelow
    · exact rowsCover_of_lt habove
    · have hr := r.isLt
      refine rowsCover_of_length_le ?_
      rw [List.length_map, List.length_range]
      omega
  rw [State.pixel_draw, huncovered, Bool.xor_false]

end Sys2Proof.Machine
end

section
/-! Timers and keys (spec/44): the timer moves, a tick, what can write DT, the wall-clock driver, the key skips and the
wait for a key. -/

namespace Sys2Proof.Machine

/-! ## What the timer writes leave alone -/

section Frames

variable (s : State)

theorem sameOutside_setDt (b : Byte) : SameOutside [.dt] s (s.setDt b) := by
  simp [SameOutside]

theorem sameOutside_setSt (b : Byte) : SameOutside [.st] s (s.setSt b) := by
  simp [SameOutside]

/-- A tick event writes the two timers and, in the model, its own list (R262, log 2). -/
theorem sameOutside_dropInput_tick : SameOutside [.dt, .st, .inputs] s s.dropInput.tick := by
  simp [SameOutside, State.tick_eq_setters, State.dropInput_eq_setInputs]

@[simp] theorem State.storeBlock_dt (a : Nat) (bs : List Byte) : (s.storeBlock a bs).dt = s.dt := by
  rw [State.storeBlock_eq_setHeap, State.setHeap_dt]

@[simp] theorem State.loadRegs_dt (first : Nat) (bs : List Byte) : (s.loadRegs first bs).dt = s.dt := by
  rw [State.loadRegs_eq_setV, State.setV_dt]

end Frames

/-! ## The timer moves and the tone (R250 to R252, R264) -/

theorem State.toneOut_iff (s : State) : s.toneOut = true ↔ s.st.toNat ≠ 0 := by
  rw [State.toneOut, bne_iff_ne]
  exact BitVec.toNat_inj.not.symm

/-- Settles O43: each move is one write, and the tone is read from the written ST. -/
theorem timerInstructionsMoveOneByte : Obligations.TimerInstructionsMoveOneByte :=
  ⟨fun x => ⟨decode_ofNat rfl (encodeByte_toNat_selector_first 0xF x 0x07),
      decode_ofNat rfl (encodeByte_toNat_selector_first 0xF x 0x15),
      decode_ofNat rfl (encodeByte_toNat_selector_first 0xF x 0x18), fun s =>
      ⟨⟨_, rfl, sameOutside_setV s _, s.readV_writeV x s.dt⟩, ⟨_, rfl, sameOutside_setDt s _, rfl⟩,
        ⟨_, rfl, sameOutside_setSt s _, rfl, State.toneOut_iff _⟩⟩⟩,
    State.toneOut_iff⟩

/-! ## The tick (R262) -/

theorem step_of_tick {s : State} (hrun : s.run = .running) (htick : s.nextInput = .tick) :
    step s = .next s.dropInput.tick := by
  simp [step, stepEvent, hrun, htick]

/-- Settles O11: the tick floors each timer at 0, so ST is above 0 after it exactly when it was above 1. -/
theorem tickDecrementsBothTimers : Obligations.TickDecrementsBothTimers := by
  intro s hrun htick
  have hst : s.dropInput.tick.st.toNat = s.st.toNat - 1 := timerDown_toNat s.st
  refine ⟨_, step_of_tick hrun htick, timerDown_toNat s.dt, hst, ?_, rfl, sameOutside_dropInput_tick s⟩
  rw [State.toneOut_iff, hst]
  omega

/-! ## What can write DT (R263) -/

theorem Effect.dt_eq_or {s t : State} {i : Instr} (h : Effect s i t) : t.dt = s.dt ∨ ∃ x, i = .ldDtVx x := by
  cases h with
  | setDt => exact .inr ⟨_, rfl⟩
  | storeDigits | storeRegs | loadRegs => exact .inl (by simp)
  | _ => exact .inl rfl

/-- Settles O46: a tick lowers DT, a key change leaves it, and so does every effect but LD_DT_VX's. -/
theorem delayTimerRisesOnlyByWrite : Obligations.DelayTimerRisesOnlyByWrite := by
  intro s t hstep hrise
  obtain ⟨-, ⟨hnext, hexec⟩ | ⟨-, rfl⟩ | ⟨k, -, rfl⟩⟩ := step_next_cases hstep
  · refine ⟨hnext, (effect_of_exec hexec).dt_eq_or.resolve_left fun hdt => ?_⟩
    exact hrise.ne (congrArg BitVec.toNat hdt).symm
  · have htick : s.dropInput.tick.dt.toNat = s.dt.toNat - 1 := timerDown_toNat s.dt
    omega
  · exact absurd hrise (lt_irrefl s.dt.toNat)

/-! ## The wall-clock driver (R261) -/

section Driver

variable {unitsPerSecond : Nat}

/-- The driver's integer test is the comparison of the time since the reference with 1/60 s. -/
theorem interval_le_sinceReference_iff (hpos : 0 < unitsPerSecond) (now intervals : Nat) :
    (1 / 60 : ℚ) ≤ now / unitsPerSecond - intervals / 60 ↔ (intervals + 1) * unitsPerSecond ≤ now * 60 := by
  have hunits : (0 : ℚ) < unitsPerSecond := Nat.cast_pos.mpr hpos
  rw [le_sub_iff_add_le, ← add_div, div_le_div_iff₀ (by norm_num) hunits, add_comm (1 : ℚ)]
  exact_mod_cast Iff.rfl

theorem TimerDriver.call_of_due {now : Nat} {d : TimerDriver} (h : (d.intervals + 1) * unitsPerSecond ≤ now * 60) :
    d.call unitsPerSecond now = ({ intervals := d.intervals + 1 }, [.tick]) := if_pos h

theorem TimerDriver.call_of_not_due {now : Nat} {d : TimerDriver}
    (h : ¬ (d.intervals + 1) * unitsPerSecond ≤ now * 60) : d.call unitsPerSecond now = (d, []) := if_neg h

/-- A reference time not after `latest` stays so under calls not after `latest`, and the calls produce a tick for each
interval it advances by. -/
theorem TimerDriver.calls_eq_replicate {latest : Nat} {times : List Nat} (htimes : ∀ now ∈ times, now ≤ latest)
    {d : TimerDriver} (hd : d.intervals * unitsPerSecond ≤ latest * 60) :
    ∃ ticks, d.calls unitsPerSecond times = ({ intervals := d.intervals + ticks }, List.replicate ticks .tick) ∧
      (d.intervals + ticks) * unitsPerSecond ≤ latest * 60 := by
  induction times generalizing d with
  | nil => exact ⟨0, rfl, hd⟩
  | cons now later ih =>
    obtain ⟨hnow, hlater⟩ := List.forall_mem_cons.mp htimes
    by_cases hdue : (d.intervals + 1) * unitsPerSecond ≤ now * 60
    · obtain ⟨ticks, hcalls, hle⟩ := ih hlater (d := { intervals := d.intervals + 1 }) (by simp only; omega)
      have hcount : d.intervals + (ticks + 1) = d.intervals + 1 + ticks := by omega
      refine ⟨ticks + 1, ?_, by rwa [hcount]⟩
      rw [TimerDriver.calls, TimerDriver.call_of_due hdue, hcalls, hcount]
      rfl
    · obtain ⟨ticks, hcalls, hle⟩ := ih hlater hd
      refine ⟨ticks, ?_, hle⟩
      rw [TimerDriver.calls, TimerDriver.call_of_not_due hdue, hcalls]
      rfl

end Driver

/-- Settles O47: the first part is the driver's test, the second follows its reference time. -/
theorem driverNeverOutrunsWallClock : Obligations.DriverNeverOutrunsWallClock := by
  refine fun unitsPerSecond hpos => ⟨fun now d => ⟨fun hdue => ?_, fun hearly => ?_⟩, fun latest times htimes => ?_⟩
  · exact TimerDriver.call_of_due ((interval_le_sinceReference_iff hpos ..).mp hdue)
  · exact TimerDriver.call_of_not_due ((interval_le_sinceReference_iff hpos ..).not.mp hearly.not_ge)
  · have hstart : TimerDriver.start.intervals * unitsPerSecond ≤ latest * 60 := by simp [TimerDriver.start]
    obtain ⟨ticks, hcalls, hle⟩ := TimerDriver.calls_eq_replicate htimes hstart
    have hcount : TimerDriver.start.intervals + ticks = ticks := Nat.zero_add ticks
    rw [hcount] at hcalls hle
    simp only [hcalls, List.length_replicate, true_and]
    exact ⟨(Nat.le_div_iff_mul_le hpos).mpr hle, fun _ => List.eq_of_mem_replicate⟩

/-! ## The key skips (R253, R254) -/

theorem State.keyPressed_iff (s : State) (b : Byte) :
    s.keyPressed b = true ↔ b.toNat ≤ 0xF ∧ s.keys.getLsbD b.toNat = true := by
  rw [State.keyPressed, Bool.and_eq_true, decide_eq_true_iff]

/-- Settles O44: both are skips, on the key being pressed and on its negation. -/
theorem keySkipsTestPressedKey : Obligations.KeySkipsTestPressedKey := by
  refine fun x => ⟨decode_ofNat rfl (encodeByte_toNat_selector_first 0xE x 0x9E),
    decode_ofNat rfl (encodeByte_toNat_selector_first 0xE x 0xA1), fun s =>
    ⟨⟨_, rfl, sameOutside_skipIf s _, ?_⟩, ⟨_, rfl, sameOutside_skipIf s _, ?_⟩⟩⟩
  · simp only [State.skipIf_pc_toNat, State.keyPressed_iff]
  · simp only [State.skipIf_pc_toNat, ← State.keyPressed_iff, Bool.not_eq_true', ← Bool.not_eq_true, ite_not]

/-! ## The wait for a key (R255) -/

section WaitForKey

variable {s : State}

theorem State.pressedKey_of_keys_eq_zero (h : s.keys = 0) : s.pressedKey = none := by
  obtain ⟨hnone, -⟩ | ⟨k, -, hpressed, -⟩ := s.pressedKey_cases
  · exact hnone
  · simp [h] at hpressed

theorem State.pressedKey_of_keys_ne_zero (h : s.keys ≠ 0) :
    ∃ k < 16, s.keys.getLsbD k = true ∧ s.pressedKey = some (BitVec.ofNat 8 k) :=
  s.pressedKey_cases.resolve_left fun ⟨_, hclear⟩ =>
    h (BitVec.eq_of_getLsbD_eq fun k hk => (hclear k hk).trans BitVec.getLsbD_zero.symm)

theorem exec_ldVxK_of_none (x : Nibble) (h : s.pressedKey = none) :
    exec (.ldVxK x) s = .next (s.setPc s.fetchAddr) := by
  simp [exec, execLdVxK, h]

theorem exec_ldVxK_of_some (x : Nibble) {b : Byte} (h : s.pressedKey = some b) :
    exec (.ldVxK x) s = .next (s.countDraw.writeV x b) := by
  simp [exec, execLdVxK, h]

end WaitForKey

/-- Settles O45: a key code is below 16, so it is held in a byte as it is. -/
theorem waitForKeyTakesPressedKeyOrRepeats : Obligations.WaitForKeyTakesPressedKeyOrRepeats := by
  refine fun x => ⟨decode_ofNat rfl (encodeByte_toNat_selector_first 0xF x 0x0A), fun s =>
    ⟨fun hzero => ?_, fun hne => ?_⟩⟩
  · exact ⟨_, exec_ldVxK_of_none x (State.pressedKey_of_keys_eq_zero hzero), s.fetchAddr_toNat, sameOutside_setPc s _⟩
  · obtain ⟨k, hlt, hpressed, hkey⟩ := State.pressedKey_of_keys_ne_zero hne
    refine ⟨_, k, exec_ldVxK_of_some x hkey, hlt, hpressed, ?_, fun _ => s.countDraw.readV_writeV_of_ne _,
      sameOutside_countDraw_setV s _⟩
    rw [State.readV_writeV_self, BitVec.toNat_ofNat]
    exact Nat.mod_eq_of_lt (by omega)

end Sys2Proof.Machine
end

section
/-! What can end a run (spec/60 R301 to R308): a fatal condition, which writes the run state alone. -/

namespace Sys2Proof.Machine

section RunState

variable (s : State)

@[simp] theorem State.storeBlock_run (a : Nat) (bs : List Byte) : (s.storeBlock a bs).run = s.run := by
  rw [State.storeBlock_eq_setHeap, State.setHeap_run]

@[simp] theorem State.loadRegs_run (first : Nat) (bs : List Byte) : (s.loadRegs first bs).run = s.run := by
  rw [State.loadRegs_eq_setV, State.setV_run]

end RunState

/-- An effect leaves the run state, or it is a fatal condition, raised by RET, CALL or SYS. -/
theorem Effect.run_eq_or {s t : State} {i : Instr} (h : Effect s i t) :
    t.run = s.run ∨ (CanEndRun i ∧ ∃ r, t = s.raiseFatal r) := by
  cases h with
  | fatal hi => exact .inr ⟨hi, _, rfl⟩
  | storeDigits | storeRegs | loadRegs => exact .inl (by simp)
  | _ => exact .inl rfl

/-- Settles O56: the answer is an effect, and the one that changes the run state is the fatal condition. -/
theorem onlyRetCallSysEndRun : Obligations.OnlyRetCallSysEndRun := by
  intro i s
  obtain ⟨t, hexec, heff⟩ := exec_effect i s
  refine ⟨t, hexec, fun hne => ?_⟩
  obtain ⟨hi, r, rfl⟩ := heff.run_eq_or.resolve_left hne
  exact ⟨hi, ⟨r, rfl⟩, sameOutside_raiseFatal s r⟩

end Sys2Proof.Machine
end

section
/-! A step of a running block, the runs from a boot, the end of a run and weakly fair ticks (spec/70). -/

namespace Sys2Proof.Machine

variable {s t : State}

/-! ## Frames -/

/-- A frame that lists more parts says less. -/
theorem SameOutside.mono {ps qs : List Part} (h : SameOutside ps s t) (hsub : ps ⊆ qs) : SameOutside qs s t := by
  obtain ⟨hcfg, hv, hpc, hi, hdt, hst, hstack, hheap, hgrid, hrun, hkeys, hdraws, hinputs⟩ := h
  have hout {part : Part} (hq : part ∉ qs) : part ∉ ps := fun hp => hq (hsub hp)
  exact ⟨hcfg, hv ∘ hout, hpc ∘ hout, hi ∘ hout, hdt ∘ hout, hst ∘ hout, hstack ∘ hout, hheap ∘ hout, hgrid ∘ hout,
    hrun ∘ hout, hkeys ∘ hout, hdraws ∘ hout, hinputs ∘ hout⟩

theorem sameOutside_dropInput (s : State) : SameOutside [.inputs] s s.dropInput := by
  simp [SameOutside, State.dropInput_eq_setInputs]

theorem sameOutside_dropInput_setKeys (s : State) (keys : BitVec 16) :
    SameOutside [.keys, .inputs] s (s.dropInput.setKeys keys) := by
  simp [SameOutside, State.dropInput_eq_setInputs]

/-! ## One step (R340) -/

theorem step_of_request (hrun : s.run = .running) (hnext : s.nextInput = .step) :
    step s = exec (decode s.fetchWord) s.dropInput.advancePc := by
  simp [step, stepEvent, hrun, hnext]

theorem sameOutside_dropInput_advancePc (s : State) : SameOutside [.pc, .inputs] s s.dropInput.advancePc := by
  simp [SameOutside, State.dropInput_eq_setInputs, State.advancePc_eq_setPc]

/-- Settles O8: the fetched word decodes to a well-formed instruction, executed once the request is off the list and pc
has advanced. -/
theorem stepExecutesDecodedInstruction : Obligations.StepExecutesDecodedInstruction := by
  refine fun s => ⟨?_, fun hstopped t hstep => hstopped (step_next_cases hstep).1⟩
  rintro hrun hnext i rfl
  obtain ⟨hwf, -⟩ := decode_standsFor s.fetchWord
  exact ⟨hwf, _, step_of_request hrun hnext, wrapAddr_toNat _, rfl, sameOutside_dropInput_advancePc s⟩

/-! ## Runs from a boot (R331, R341) -/

theorem boot_inv {cfg : Config} {image : List Byte} (h : boot cfg image = some s) : s.Inv := by
  obtain ⟨-, rfl⟩ := boot_eq_some_iff.mp h
  exact ((resetHasMachineInvariant cfg).storeBlock _ _).storeBlock _ _

theorem StartOfRun.inv (h : StartOfRun s) : s.Inv := by
  obtain ⟨cfg, image, s₀, hboot, keys, draws, inputs, rfl⟩ := h
  exact (((boot_inv hboot).setKeys keys).setDraws draws).setInputs inputs

theorem Reaches.inv (h : Reaches s t) (hs : s.Inv) : t.Inv := by
  induction h with
  | refl => exact hs
  | step _ hstep ih => exact step_inv ih hstep

/-- Settles O50: a boot has the invariant, and each step of a reached state and each event of a driven run keeps it. -/
theorem everyRunKeepsMachineInvariant : Obligations.EveryRunKeepsMachineInvariant := fun s hstart =>
  ⟨fun _ hreach => hreach.inv hstart.inv, fun env => s.drivenBy_induction env hstart.inv fun _ _ _ => stepEvent_inv⟩

/-! ## The end of a run (R345) -/

section AtEnd

variable {p : Addr}

-- What the events themselves write is neither the run state nor pc nor the word there.
theorem State.AtEnd.dropInput (h : s.AtEnd p) : s.dropInput.AtEnd p := h
theorem State.AtEnd.tick (h : s.AtEnd p) : s.tick.AtEnd p := h
theorem State.AtEnd.setKeys (h : s.AtEnd p) (keys : BitVec 16) : (s.setKeys keys).AtEnd p := h

theorem State.AtEnd.pc_eq (h : s.AtEnd p) : s.pc = p.setWidth 16 := by
  obtain ⟨-, hpc, -⟩ := h
  exact BitVec.eq_of_toNat_eq (hpc.trans (addr_setWidth_toNat p).symm)

theorem State.AtEnd.decode_fetchWord (h : s.AtEnd p) : decode s.fetchWord = .jp p := by
  obtain ⟨-, -, hword⟩ := h
  have hjp : s.fetchWord = encode (.jp p) := BitVec.eq_of_toNat_eq (hword.trans (encodeAddr_toNat 0x1 p).symm)
  rw [hjp, decode_encode rfl]

/-- The jump takes pc back to where it was fetched, so an instruction step leaves the very state it found. -/
theorem State.AtEnd.exec_fetched (h : s.AtEnd p) : exec (decode s.fetchWord) s.advancePc = .next s := by
  rw [h.decode_fetchWord]
  calc exec (.jp p) s.advancePc = .next (s.setPc (p.setWidth 16)) := rfl
    _ = .next s := by rw [← h.pc_eq]; rfl

/-- Everything an event can do at the end of a run: an instruction step changes nothing. -/
theorem State.AtEnd.stepEvent_cases (h : s.AtEnd p) {e : Input} (hnext : stepEvent e s = .next t) :
    (e = .step ∧ t = s) ∨ (e = .tick ∧ t = s.tick) ∨ ∃ k, e = .keys k ∧ t = s.setKeys k := by
  obtain ⟨-, ⟨he, hexec⟩ | hother⟩ := stepEvent_next_cases hnext
  · exact .inl ⟨he, Host.Outcome.next.inj (hexec.symm.trans h.exec_fetched)⟩
  · exact .inr hother

end AtEnd

/-- Settles O57: taking the event off the list stays at the end, where an instruction step changes nothing, a tick the
timers and a key change the level. -/
theorem endOfRunIsStable : Obligations.EndOfRunIsStable := by
  intro s t p hend hstep
  obtain ⟨hnext, rfl⟩ | ⟨hnext, rfl⟩ | ⟨k, hnext, rfl⟩ := hend.dropInput.stepEvent_cases hstep
  · exact ⟨hend.dropInput, (sameOutside_dropInput s).mono (by simp), fun _ => sameOutside_dropInput s⟩
  · exact ⟨hend.dropInput.tick, (sameOutside_dropInput_tick s).mono (by simp), by simp [hnext]⟩
  · exact ⟨hend.dropInput.setKeys k, (sameOutside_dropInput_setKeys s k).mono (by simp), by simp [hnext]⟩

/-! ## Weakly fair ticks (R262, R263, R341, D24) -/

/-- A sequence that never rises from `n` on, and again and again goes down by one, comes to 0 and stays there. -/
theorem eventually_zero_of_infinitely_often_pred {f : Nat → Nat} {n : Nat} (hle : ∀ m, n ≤ m → f (m + 1) ≤ f m)
    (hpred : ∀ k, n ≤ k → ∃ m, k ≤ m ∧ f (m + 1) = f m - 1) : ∃ m, n ≤ m ∧ ∀ k, m ≤ k → f k = 0 := by
  have hanti : AntitoneOn f {m | n ≤ m} := antitoneOn_nat_Ici_of_succ_le hle
  have hzero (v : Nat) : ∀ k, n ≤ k → f k ≤ v → ∃ m, n ≤ m ∧ f m = 0 := by
    induction v with
    | zero => exact fun k hk hv => ⟨k, hk, Nat.eq_zero_of_le_zero hv⟩
    | succ v ih =>
      intro k hk hv
      obtain ⟨m, hkm, hm⟩ := hpred k hk
      have hmk : f m ≤ f k := hanti hk (hk.trans hkm) hkm
      exact ih (m + 1) (by omega) (by omega)
  obtain ⟨m, hm, hfm⟩ := hzero (f n) n le_rfl le_rfl
  exact ⟨m, hm, fun k hk => Nat.eq_zero_of_le_zero (hfm ▸ hanti hm (hm.trans hk) hk)⟩

/-- A running block takes every event of the sequence that drives it. -/
theorem State.stepEvent_drivenBy (env : Nat → Input) (s : State) {n : Nat} (h : (s.drivenBy env n).run = .running) :
    stepEvent (env n) (s.drivenBy env n) = .next (s.drivenBy env (n + 1)) := by
  obtain ⟨t, ht⟩ := stepEvent_of_running h (env n)
  simp only [State.drivenBy, ht]

/-- A tick lowers DT by one, floored at 0; any other event leaves it unless it executes LD_DT_VX. -/
theorem stepEvent_dt_toNat {e : Input} (h : stepEvent e s = .next t)
    (hwrite : e = .step → ∀ x, decode s.fetchWord ≠ .ldDtVx x) :
    t.dt.toNat = if e = .tick then s.dt.toNat - 1 else s.dt.toNat := by
  obtain ⟨-, ⟨rfl, hexec⟩ | ⟨rfl, rfl⟩ | ⟨k, rfl, rfl⟩⟩ := stepEvent_next_cases h
  · have hdt : t.dt = s.dt := (effect_of_exec hexec).dt_eq_or.resolve_right fun ⟨x, hx⟩ => hwrite rfl x hx
    simp [hdt]
  · exact timerDown_toNat s.dt
  · rfl

theorem State.AtEnd.drivenBy {p : Addr} (hend : s.AtEnd p) {env : Nat → Input} (hticks : ∀ m, env m ≠ .tick)
    (n : Nat) : (s.drivenBy env n).AtEnd p ∧ (s.drivenBy env n).dt = s.dt := by
  induction n with
  | zero => exact ⟨hend, rfl⟩
  | succ n ih =>
    obtain ⟨ihend, ihdt⟩ := ih
    have hnext := s.stepEvent_drivenBy env ihend.1
    obtain ⟨-, hsame⟩ | ⟨htick, -⟩ | ⟨k, -, hkeys⟩ := ihend.stepEvent_cases hnext
    · rw [hsame]; exact ⟨ihend, ihdt⟩
    · exact absurd htick (hticks n)
    · rw [hkeys]; exact ⟨ihend.setKeys k, ihdt⟩

/-- Settles O60: from event n on DT never rises and each tick lowers it, and fairness brings ticks without end; at a
self-jump the events that are no ticks leave DT. -/
theorem fairTicksRunDelayTimerOut : Obligations.FairTicksRunDelayTimerOut := by
  refine ⟨fun env s n hfair hrun hwrite => ?_, fun env s p hend hticks => hend.drivenBy hticks⟩
  have hdt {m : Nat} (hm : n ≤ m) := stepEvent_dt_toNat (s.stepEvent_drivenBy env (hrun m)) (hwrite m hm)
  have hle (m : Nat) (hm : n ≤ m) : (s.drivenBy env (m + 1)).dt.toNat ≤ (s.drivenBy env m).dt.toNat := by
    rw [hdt hm]
    split <;> omega
  have hpred (k : Nat) (hk : n ≤ k) :
      ∃ m, k ≤ m ∧ (s.drivenBy env (m + 1)).dt.toNat = (s.drivenBy env m).dt.toNat - 1 := by
    obtain ⟨m, hkm, htick⟩ := hfair k fun m _ => hrun m
    exact ⟨m, hkm, by rw [hdt (hk.trans hkm), if_pos htick]⟩
  obtain ⟨m, hm, hzero⟩ :=
    eventually_zero_of_infinitely_often_pred (f := fun k => (s.drivenBy env k).dt.toNat) hle hpred
  exact ⟨m, hm, fun k hk => BitVec.eq_of_toNat_eq (hzero k hk)⟩

end Sys2Proof.Machine
end
